-- ==== Sys2Proof/Word.lean ====
section
/-! DEFINITION. The words of the machine: the widths the spec fixes for bytes, septets, lux numbers and
transaction words (spec/00_scope.md R14, spec/20_memory.md R63, spec/30_encoding.md R97). -/

namespace Sys2Proof

/-- A byte 0..255, bit 7 of weight 128 (20_memory.md R63). -/
abbrev Byte := BitVec 8

/-- A 7-bit group (00_scope.md R17). -/
abbrev Septet := BitVec 7

/-- An IEEE 754 binary32 bit pattern: bit 31 sign, bits 30:23 exponent, bits 22:0 fraction
(44_brightness_controller.md R192). -/
abbrev Binary32 := BitVec 32

/-- The carrier of a timestamp, an unsigned count of milliseconds supplied by the caller (00_scope.md R17): the operand
`arg` whole, of which a timestamp takes the low `TSW` bits, "the rest 0" (30_encoding.md R101). -/
abbrev Timestamp := BitVec 32

/-- A 48-bit transaction word (30_encoding.md R97). -/
abbrev TW := BitVec 48

end Sys2Proof
end

