-- ==== Sys2Proof/Config.lean ====
section
/-! DEFINITION. What an implementation fixes: the constants of spec/00_scope.md R12 and the parameters of R13, widths and
values, with the values this hardware takes. The spec leaves no instruction result open, so
there is no free value here. -/

namespace Sys2Proof

/-! ### Constants the source fixes (R12) -/

/-- `HEADER = 0xA5` (R12, 30_encoding.md R91). -/
def Const.header : Byte := 0xA5

/-- `FRAME_SIZE = 4` bytes (R12). -/
def Const.frameSize : Nat := 4

/-- The checksum mask `0x7F` (R12). -/
def Const.checksumMask : Nat := 0x7F

/-- The septet weight `128` of the concentration formula (R12). -/
def Const.septetWeight : Nat := 128

/-- `BOOST = 255`: a constant of the source, named for readability (R12, R13). -/
def Const.boost : Byte := 255

/-! ### Parameters (R13) -/

/-- The two legal values of `CURVE_ROUND` and of `VP_ROUND` (R13, 92_eei_decisions.md D8 and D9). -/
inductive Rounding where
  | trunc
  | nearest
  deriving DecidableEq, Repr

/-- The configuration record of R13: "a model takes them as a configuration record". -/
structure Config where
  /-- `TSW`, width of a timestamp, whose subtraction is modulo `2^TSW` (92_eei_decisions.md D5). -/
  tsw : Nat
  /-- `MVW`, width of the millivolt operand, two's complement (D12). -/
  mvw : Nat
  /-- `STEPW`, width of `BC.stepCount` (D12). -/
  stepw : Nat
  /-- `MOTION_TIMEOUT`, in timestamp units. -/
  motionTimeout : Nat
  /-- `LUX_T1`, `LUX_T2`, `LUX_T3`. -/
  luxT1 : Binary32
  luxT2 : Binary32
  luxT3 : Binary32
  /-- `BASE_DARK`, `BASE_DIM`, `BASE_MID`, `BASE_BRIGHT`. -/
  baseDark : Byte
  baseDim : Byte
  baseMid : Byte
  baseBright : Byte
  /-- `RISE_STEPS`, `FALL_STEPS`. -/
  riseSteps : Nat
  fallSteps : Nat
  /-- `TICK_PERIOD` in milliseconds: informative, read by no operation, only by the environment's duty R270. -/
  tickPeriod : Nat
  /-- `CURVE_ROUND`. -/
  curveRound : Rounding
  /-- `VP_X[0..6]`, in millivolts. -/
  vpX : Vector Int 7
  /-- `VP_Y[0..6]`, in percent. -/
  vpY : Vector Nat 7
  /-- `VP_ROUND`. -/
  vpRound : Rounding
  deriving DecidableEq, Repr

/-- The values this hardware takes (column "default" of R13). The three thresholds are the binary32 encodings of
100.0, 300.0 and 500.0 that R192 gives. -/
def Config.default : Config where
  tsw := 32
  mvw := 16
  stepw := 8
  motionTimeout := 5000
  luxT1 := 0x42C80000
  luxT2 := 0x43960000
  luxT3 := 0x43FA0000
  baseDark := 110
  baseDim := 80
  baseMid := 50
  baseBright := 0
  riseSteps := 40
  fallSteps := 60
  tickPeriod := 50
  curveRound := .trunc
  vpX := #v[3000, 3300, 3600, 3700, 3800, 4000, 4200]
  vpY := #v[0, 5, 20, 40, 60, 85, 100]
  vpRound := .trunc

end Sys2Proof
end

