-- ==== Sys2Proof/Syntax.lean ====
section
/-! DEFINITION. The operations of the core: one constructor per row of spec/opcode_table.json
(spec/30_encoding.md R99), the two channels (R100) and the names of the reserved encodings (R103). -/

namespace Sys2Proof

/-- The seven operations of R99, with the operands of R101. -/
inductive Instr where
  /-- Nothing is presented (42_frame_decoder.md R150). -/
  | nop
  /-- Battery millivolts to percentage: "a two's-complement integer" (41_voltage_to_percent.md R120). -/
  | percent (mv : Int)
  /-- Give the decoder the next received byte (42_frame_decoder.md R140). -/
  | feed (byte : Byte)
  /-- Record a motion event (43_motion_latch.md R170). -/
  | trigger (now : Timestamp)
  /-- Manual override, force motion inactive (43_motion_latch.md R173). -/
  | clear
  /-- Is motion active at time `now` (43_motion_latch.md R175). -/
  | query (now : Timestamp)
  /-- One period of the brightness controller (44_brightness_controller.md R190). -/
  | tick (lux : Binary32) (m : Bool)
  deriving DecidableEq, Repr

/-- The path on which an agent presents operations (R17, R100). -/
inductive Channel where
  /-- Channel P, the poller. -/
  | p
  /-- Channel T, the trigger sources. -/
  | t
  deriving DecidableEq, Repr

/-- The four units of 00_scope.md R2; an operation belongs to at most one (column "unit" of R99). -/
inductive Unit4 where
  | vp
  | fd
  | ml
  | bc
  deriving DecidableEq, Repr

/-- The unit an operation works on; NOP works on none (R99). -/
def Instr.unit : Instr → Option Unit4
  | .nop => none
  | .percent _ => some .vp
  | .feed _ => some .fd
  | .trigger _ => some .ml
  | .clear => some .ml
  | .query _ => some .ml
  | .tick _ _ => some .bc

/-- Why a transaction word is reserved (R103). -/
inductive Reserved where
  /-- `op` is `0x07` to `0xFF`. -/
  | opcode
  /-- `z` is not 0. -/
  | zBits
  /-- `m` is 1 with an `op` other than `0x06`. -/
  | mBit
  /-- A 1 in an `arg` bit that R101 says must be 0. -/
  | argBits
  /-- Channel T carries a word other than a TRIGGER. -/
  | channel
  deriving DecidableEq, Repr

end Sys2Proof
end

