-- ==== Sys2Proof/WellFormed.lean ====
section
/-! DEFINITION. The checks a term must pass to be an operation a channel may carry (spec/30_encoding.md R100) and a
configuration to be one the spec's rules speak of (spec/00_scope.md R13; 10_state.md R34; 43_motion_latch.md R178;
44_brightness_controller.md R193, R210; 41_voltage_to_percent.md R120, R126), and for an operand to fit the width a
configuration gives it (30_encoding.md R101). -/

namespace Sys2Proof

/-- R100: channel P accepts all seven operations, channel T accepts TRIGGER only. -/
def Instr.legalOn : Channel → Instr → Bool
  | .p, _ => true
  | .t, .trigger _ => true
  | .t, .nop => false
  | .t, .percent _ => false
  | .t, .feed _ => false
  | .t, .clear => false
  | .t, .query _ => false
  | .t, .tick _ _ => false

/-- R101: an operand fits its width, two's complement for PERCENT and unsigned for a timestamp. The other operands'
widths are no parameters, and their types hold them. -/
def Instr.fits (c : Config) : Instr → Bool
  | .percent mv => decide (-(2 : Int) ^ c.mvw ≤ 2 * mv) && decide (2 * mv < (2 : Int) ^ c.mvw)
  | .trigger now => decide (now.toNat < 2 ^ c.tsw)
  | .query now => decide (now.toNat < 2 ^ c.tsw)
  | .nop => true
  | .feed _ => true
  | .clear => true
  | .tick _ _ => true

/-- DEDUCED (log entry 8): both operand widths fit the 32 bits of `arg` (R97, R101). -/
def Config.widthsFit (c : Config) : Bool := decide (c.tsw ≤ 32) && decide (c.mvw ≤ 32)

/-- "a configuration must have TO < W" (R178). -/
def Config.timeoutFits (c : Config) : Bool := decide (c.motionTimeout < 2 ^ c.tsw)

/-- "no division by zero as long as RISE_STEPS >= 1 and FALL_STEPS >= 1" (R210). -/
def Config.stepsPositive (c : Config) : Bool := decide (1 ≤ c.riseSteps) && decide (1 ≤ c.fallSteps)

/-- "a configuration must satisfy max(RISE_STEPS, FALL_STEPS) + 1 < 2^STEPW" (R34). -/
def Config.stepsFit (c : Config) : Bool :=
  decide (c.riseSteps + 1 < 2 ^ c.stepw) && decide (c.fallSteps + 1 < 2 ^ c.stepw)

/-- DEDUCED (log entry 8): the brackets "[T1,T2)" and "[T2,T3)" of R13 need ascending thresholds, non-negative and below
infinity. Non-negative binary32 numbers are ordered as their bit patterns. -/
def Config.luxAscending (c : Config) : Bool :=
  decide (c.luxT1.toNat < c.luxT2.toNat) && decide (c.luxT2.toNat < c.luxT3.toNat) &&
    decide (c.luxT3.toNat < 0x7F800000)

/-- DEDUCED (log entry 8): "the unique index i in 0..5 with X[i] <= mv < X[i+1]" (R120) needs ascending breakpoints. -/
def Config.vpXAscending (c : Config) : Bool :=
  decide (c.vpX[0] < c.vpX[1]) && decide (c.vpX[1] < c.vpX[2]) && decide (c.vpX[2] < c.vpX[3]) &&
    decide (c.vpX[3] < c.vpX[4]) && decide (c.vpX[4] < c.vpX[5]) && decide (c.vpX[5] < c.vpX[6])

/-- DEDUCED (log entry 8): the percentages do not descend, start at 0 and end at 100, the two clamp values of R120; R126's
monotonicity needs it. -/
def Config.vpYAscending (c : Config) : Bool :=
  decide (c.vpY[0] = 0) && decide (c.vpY[0] ≤ c.vpY[1]) && decide (c.vpY[1] ≤ c.vpY[2]) &&
    decide (c.vpY[2] ≤ c.vpY[3]) && decide (c.vpY[3] ≤ c.vpY[4]) && decide (c.vpY[4] ≤ c.vpY[5]) &&
    decide (c.vpY[5] ≤ c.vpY[6]) && decide (c.vpY[6] = 100)

/-- A configuration the rules of the spec speak of. A premise of claims, never a check inside a step. -/
def Config.wf (c : Config) : Bool :=
  c.widthsFit && c.timeoutFits && c.stepsPositive && c.stepsFit && c.luxAscending && c.vpXAscending &&
    c.vpYAscending

end Sys2Proof
end

