-- ==== Sys2Proof/Decode.lean ====
section
/-! DEFINITION. The transaction word: its fields (spec/30_encoding.md R97), the decoder of R99 and R101, total on every
48-bit word and naming the reserved ones (R103), what each channel may carry (R100), and the encoder. The widths of two
operands are parameters (00_scope.md R13), so both take the configuration. -/

namespace Sys2Proof

/-! ### Fields of a word (R97) -/

/-- Bits 47:40. -/
def TW.op (w : TW) : Byte := w.extractLsb' 40 8

/-- Bits 39:33, must be 0. -/
def TW.z (w : TW) : Septet := w.extractLsb' 33 7

/-- Bit 32. -/
def TW.m (w : TW) : Bool := w.getLsbD 32

/-- Bits 31:0. -/
def TW.arg (w : TW) : BitVec 32 := w.extractLsb' 0 32

/-- The word `{op, z = 0, m, arg}`. -/
def TW.make (op : Byte) (m : Bool) (arg : BitVec 32) : TW :=
  (op.setWidth 48 <<< 40) ||| ((BitVec.ofBool m).setWidth 48 <<< 32) ||| arg.setWidth 48

/-! ### Decoder -/

/-- "the low ... bits, the rest 0" (R101). -/
def lowBits (n : Nat) (arg : BitVec 32) : BitVec 32 := (arg.setWidth n).setWidth 32

/-- The operand in the low `n` bits of `arg`, where R101 says the bits above them must be 0. -/
def lowOperand (n : Nat) (arg : BitVec 32) : Except Reserved (BitVec 32) :=
  if lowBits n arg = arg then .ok arg else .error .argBits

/-- `sext` of the low `n` bits, a mathematical integer (R101). -/
def signedOperand (n : Nat) (arg : BitVec 32) : Int := (arg.setWidth n).toInt

/-- R101 for CLEAR and NOP: `arg` must be 0. -/
def noOperand (i : Instr) (arg : BitVec 32) : Except Reserved Instr :=
  if arg = 0 then .ok i else .error .argBits

/-- R99 with R101 and R103. -/
def decode (c : Config) (w : TW) : Except Reserved Instr :=
  if w.z ≠ 0 then .error .zBits
  else if w.m = true ∧ w.op ≠ 0x06 then .error .mBit
  else if w.op = 0x00 then noOperand .nop w.arg
  else if w.op = 0x01 then (lowOperand c.mvw w.arg).map fun a => .percent (signedOperand c.mvw a)
  else if w.op = 0x02 then (lowOperand 8 w.arg).map fun a => .feed (a.setWidth 8)
  else if w.op = 0x03 then (lowOperand c.tsw w.arg).map .trigger
  else if w.op = 0x04 then noOperand .clear w.arg
  else if w.op = 0x05 then (lowOperand c.tsw w.arg).map .query
  else if w.op = 0x06 then .ok (.tick w.arg w.m)
  else .error .opcode

/-- The operation a word stands for on a channel; "A TRIGGER is the only word channel T may carry; any other word there
is reserved" (R103). -/
def decodeOn (c : Config) (ch : Channel) (w : TW) : Except Reserved Instr :=
  match decode c w with
  | .error e => .error e
  | .ok i => if i.legalOn ch then .ok i else .error .channel

/-- The instruction the decoder reads from a word whose bits are numbered as spec/opcode_table.json numbers them, at the
widths this hardware takes. The whole word is one 48-bit number (R97), so there is no order of bytes to settle
(log entry 11). -/
def decodeTableWord (nbits w : Nat) : Option Instr :=
  if w % 2 ^ nbits < 2 ^ 48 then
    match decode Config.default (BitVec.ofNat 48 (w % 2 ^ nbits)) with
    | .ok i => some i
    | .error _ => none
  else none

/-! ### Encoder -/

/-- The word of an operation, written from R97, R99 and R101. -/
def encode (c : Config) : Instr → TW
  | .nop => TW.make 0x00 false 0
  | .percent mv => TW.make 0x01 false ((BitVec.ofInt c.mvw mv).setWidth 32)
  | .feed byte => TW.make 0x02 false (byte.setWidth 32)
  | .trigger now => TW.make 0x03 false (lowBits c.tsw now)
  | .clear => TW.make 0x04 false 0
  | .query now => TW.make 0x05 false (lowBits c.tsw now)
  | .tick lux m => TW.make 0x06 m lux

/-! ### The rows of spec/opcode_table.json -/

/-- The "match" of an operation's row; the table is written at the widths this hardware takes. -/
def Instr.tableMatch : Instr → TW
  | .nop => 0x000000000000
  | .percent _ => 0x010000000000
  | .feed _ => 0x020000000000
  | .trigger _ => 0x030000000000
  | .clear => 0x040000000000
  | .query _ => 0x050000000000
  | .tick _ _ => 0x060000000000

/-- The "mask" of an operation's row. -/
def Instr.tableMask : Instr → TW
  | .nop => 0xFFFFFFFFFFFF
  | .percent _ => 0xFFFFFFFF0000
  | .feed _ => 0xFFFFFFFFFF00
  | .trigger _ => 0xFFFF00000000
  | .clear => 0xFFFFFFFFFFFF
  | .query _ => 0xFFFF00000000
  | .tick _ _ => 0xFFFE00000000

end Sys2Proof
end

