-- ==== Sys2Proof/Machine/State.lean ====
section
/-! DEFINITION. The state of the machine as plain data: the eleven registers of spec/10_state.md R22, grouped by the unit
that owns them, and beside them three fields of the model's own, which are not registers of the core: the configuration
(00_scope.md R13), the outputs of the operation performed last (R39), and what the environment presents next
(20_memory.md R71). Then the reasons a step can stop, and the reset state (R42). -/

namespace Sys2Proof.Machine

/-- `FD.state` (R23). -/
inductive FdMode where
  | searchingHeader
  | accumulatingPayload
  deriving DecidableEq, Repr

/-- The one-bit code of `FD.state` (R22, R23). -/
def FdMode.code : FdMode → BitVec 1
  | .searchingHeader => 0
  | .accumulatingPayload => 1

/-- The registers of FrameDecoder (R23 to R25). -/
structure FdState where
  /-- `FD.state`, 1 bit. -/
  mode : FdMode
  /-- `FD.idx`, 2 bits, 0..3: where the next accepted byte is stored. -/
  idx : Fin 4
  /-- `FD.buf[0..3]`, 4 x 8 bits. -/
  buf : Vector Byte 4
  deriving DecidableEq, Repr

/-- The registers of MotionLatch (R27, R28). -/
structure MlState where
  /-- `ML.active`, 1 bit: the core's one status flag (R38). -/
  active : Bool
  /-- `ML.last`, the low `TSW` bits of its carrier (log entry 3): the timestamp of the last TRIGGER. -/
  last : Timestamp
  deriving DecidableEq, Repr

/-- `BC.phase` (R33). Code 3 is excluded by the type (log entry 6). -/
inductive Phase where
  | idle
  | rising
  | falling
  deriving DecidableEq, Repr

/-- The two-bit code of `BC.phase` (R22, R33). -/
def Phase.code : Phase → BitVec 2
  | .idle => 0
  | .rising => 1
  | .falling => 2

/-- The registers of BrightnessController (R30 to R35). -/
structure BcState where
  /-- `BC.current`, 8 bits: the instantaneous output brightness. -/
  current : Byte
  /-- `BC.target`, 8 bits: the brightness the curve engine is animating toward. -/
  target : Byte
  /-- `BC.base`, 8 bits: the brightness implied by ambient light alone. -/
  base : Byte
  /-- `BC.phase`, 2 bits. -/
  phase : Phase
  /-- `BC.stepCount`, `STEPW` bits: the step of the curve in progress, a number below `2^STEPW` (log entry 3). -/
  stepCount : Nat
  /-- `BC.stepStart`, 8 bits: the brightness at which the curve in progress started. -/
  stepStart : Byte
  deriving DecidableEq, Repr

/-- The outputs of a FEED that completes a valid frame (R39, 42_frame_decoder.md R144). -/
structure Frame where
  header : Byte
  dataHigh : Septet
  dataLow : Septet
  checksum : Septet
  concentration : BitVec 14
  deriving DecidableEq, Repr

/-- The outputs of one operation (R39). -/
inductive Output where
  /-- TRIGGER, CLEAR and NOP return nothing. -/
  | none
  /-- PERCENT returns `pct`. -/
  | pct (v : BitVec 7)
  /-- FEED returns `frame_valid` and, when it is 1, the frame: `frame_valid = 1` is `some`. -/
  | frame (f : Option Frame)
  /-- QUERY returns `active`. -/
  | active (a : Bool)
  /-- TICK returns `brightness`. -/
  | brightness (v : Byte)
  deriving DecidableEq, Repr

/-- What the environment presents to the core at one instant (00_scope.md R10; 70_reset_and_hazards.md R260, R265). -/
inductive Presented where
  /-- Nothing is presented (30_encoding.md R99, NOP). -/
  | nothing
  /-- A word on channel P. -/
  | onP (w : TW)
  /-- A word on channel T. -/
  | onT (w : TW)
  /-- A word on each channel at the same instant (20_memory.md R72). -/
  | both (wP wT : TW)
  /-- The reset event (70_reset_and_hazards.md R260). -/
  | reset
  deriving DecidableEq, Repr

/-- The whole state. -/
structure State where
  /-- The configuration: not a register; "fixed before the first operation" (R263), written by nothing (log entry 3). -/
  cfg : Config
  /-- The registers of FD. -/
  fd : FdState
  /-- The registers of ML. -/
  ml : MlState
  /-- The registers of BC. -/
  bc : BcState
  /-- The model's own: the outputs of the operation performed last (log entry 4). -/
  out : Output
  /-- The model's own: what the environment will present, first instant first (log entry 1). One list is one
  interleaving of the two channels; a claim over all states is a claim over every interleaving (R71). -/
  env : List Presented
  deriving DecidableEq, Repr

/-- The brightness output: "it is BC.current, a register, so the actuator layer can read it at any time" (R39). -/
def State.brightness (s : State) : Byte := s.bc.current

/-- Faults: there is none. "A model's step function for an operation of 30_encoding.md rule R99 never returns a fault"
(60_exceptions.md R230). -/
inductive Fault where
  deriving DecidableEq, Repr

/-- Refusals. -/
inductive Refusal where
  /-- Raised by an arm of `exec` whose instruction has no meaning yet; no arm raises it now. Safe. -/
  | notModelled (mnemonic : String)
  /-- Raised by `step` when the environment presents a reserved word: "A model refuses a reserved word (it is not an
  operation of the core)" (30_encoding.md R103, log entry 5). Safe: hardware goes on and changes nothing. -/
  | reservedWord (why : Reserved)
  deriving DecidableEq, Repr

/-! ### Reset (R42, R261) -/

/-- FD after reset. The spec leaves `FD.buf` unspecified; zeros are a DESIGN CHOICE (log entry 2, unsafe). -/
def FdState.reset : FdState := ⟨.searchingHeader, 0, #v[0, 0, 0, 0]⟩

/-- ML after reset. -/
def MlState.reset : MlState := ⟨false, 0⟩

/-- BC after reset. -/
def BcState.reset : BcState := ⟨0, 0, 0, .idle, 0, 0⟩

/-- The machine right after reset, at the parameters this hardware takes, with nothing presented. -/
def State.reset : State := ⟨Config.default, FdState.reset, MlState.reset, BcState.reset, .none, []⟩

end Sys2Proof.Machine
end

