-- ==== Sys2Proof/Machine/Ops.lean ====
section
/-! DEFINITION. The operations shared by the meanings: replacing one unit's registers, delivering an operation's outputs,
the frame buffer's one store, the quotient of a fraction under a rounding mode, and the reset event. The core has no
memory (spec/20_memory.md R60) and takes no exception (spec/60_exceptions.md R230), so there is no memory operation,
no exception entry and no return from one. -/

namespace Sys2Proof.Machine

/-- Write FD's registers; no other unit's (10_state.md R43). -/
def State.setFd (s : State) (fd : FdState) : State := { s with fd := fd }

/-- Write ML's registers. -/
def State.setMl (s : State) (ml : MlState) : State := { s with ml := ml }

/-- Write BC's registers. -/
def State.setBc (s : State) (bc : BcState) : State := { s with bc := bc }

/-- An operation "returns its outputs at its end" (R39). -/
def State.deliver (s : State) (o : Output) : State := { s with out := o }

/-- `FD.buf[i] <- byte`: the only indexed store of the core (20_memory.md R61, 42_frame_decoder.md R153). -/
def FdState.store (fd : FdState) (i : Fin 4) (byte : Byte) : FdState :=
  { fd with buf := fd.buf.set i byte }

/-- `Q(n, d)`: the integer made from the fraction `n / d` (44_brightness_controller.md R201; R124 has the same two
forms). For `d > 0` Lean's `/` on integers is the floor. -/
def quotient : Rounding → Int → Int → Int
  | .trunc, n, d => n / d
  | .nearest, n, d => (2 * n + d) / (2 * d)

/-- The reset event: the registers of R42; "The parameters ... are not state and are not changed by reset" (R262); no
output is driven (R261). -/
def State.resetEvent (s : State) : State :=
  { s with fd := FdState.reset, ml := MlState.reset, bc := BcState.reset, out := .none }

end Sys2Proof.Machine
end

