-- ==== Sys2Proof/Machine/Operands.lean ====
section
/-! DEFINITION. How operands are read: the lux operand as an IEEE 754 binary32 number with its ordered comparison
(spec/44_brightness_controller.md R192). The other operands are read as the decoder assembles them
(spec/30_encoding.md R101). -/

namespace Sys2Proof.Machine

/-- The number a binary32 pattern stands for. A finite number is held as its exact multiple of `2^-149`, the least
positive binary32 number. -/
inductive LuxValue where
  | nan
  | negInf
  | finite (v : Int)
  | posInf
  deriving DecidableEq, Repr

/-- Bits 30:23 (R192). -/
def luxExponent (x : Binary32) : Nat := (x.extractLsb' 23 8).toNat

/-- Bits 22:0 (R192). -/
def luxFraction (x : Binary32) : Nat := (x.extractLsb' 0 23).toNat

/-- Bit 31 (R192). -/
def luxSign (x : Binary32) : Bool := x.getLsbD 31

/-- The magnitude of a finite pattern in units of `2^-149`: `fraction` when the exponent field is 0 (a subnormal number),
else `(2^23 + fraction) * 2^(exponent - 1)`. PRESUMED, as R192 marks it: general knowledge of binary32 (log entry 9). -/
def luxMagnitude (x : Binary32) : Nat :=
  if luxExponent x = 0 then luxFraction x else (2 ^ 23 + luxFraction x) * 2 ^ (luxExponent x - 1)

/-- The number of a pattern; exponent field 255 is an infinity or a NaN. -/
def luxValue (x : Binary32) : LuxValue :=
  if luxExponent x = 255 then
    if luxFraction x = 0 then (if luxSign x then .negInf else .posInf) else .nan
  else .finite (if luxSign x then -(luxMagnitude x : Int) else (luxMagnitude x : Int))

/-- `a >= b` on numbers: false on a NaN; infinities at the ends. -/
def LuxValue.ge : LuxValue → LuxValue → Bool
  | .nan, _ => false
  | _, .nan => false
  | .posInf, _ => true
  | _, .negInf => true
  | .negInf, _ => false
  | _, .posInf => false
  | .finite a, .finite b => decide (b ≤ a)

/-- The IEEE ordered comparison `lux >= t` (R192). -/
def luxGe (lux t : Binary32) : Bool := (luxValue lux).ge (luxValue t)

end Sys2Proof.Machine
end

