-- ==== Sys2Proof/Machine/Flags.lean ====
section
/-! DEFINITION. The core's one status flag, `ML.active` (spec/10_state.md R38): its three writers set it, clear it, and
clear it on expiry. There are no condition codes. -/

namespace Sys2Proof.Machine

/-- TRIGGER's write of the pair; the register holds `TSW` bits (43_motion_latch.md R170, 10_state.md R28). -/
def MlState.set (c : Config) (now : Timestamp) : MlState := ⟨true, lowBits c.tsw now⟩

/-- CLEAR's write; `ML.last` keeps its value (R173). -/
def MlState.clear (ml : MlState) : MlState := { ml with active := false }

/-- `(now - ML.last) mod 2^TSW`, the non-negative remainder (R175, R178, 00_scope.md R14). -/
def MlState.elapsed (c : Config) (now : Timestamp) (ml : MlState) : Nat :=
  (((now.toNat : Int) - ml.last.toNat) % (2 : Int) ^ c.tsw).toNat

/-- Expiry, strict: `ML.active == 1 and elapsed > MOTION_TIMEOUT` (R175, R176). -/
def MlState.expired (c : Config) (now : Timestamp) (ml : MlState) : Bool :=
  ml.active && decide (c.motionTimeout < ml.elapsed c now)

/-- QUERY's conditional write of the flag (R175). -/
def MlState.expire (c : Config) (now : Timestamp) (ml : MlState) : MlState :=
  if ml.expired c now then ml.clear else ml

end Sys2Proof.Machine
end

