-- ==== Sys2Proof/Machine/BrightnessController.lean ====
section
/-! DEFINITION. The operation of unit BC: TICK, its four steps in their order (spec/44_brightness_controller.md R191). -/

namespace Sys2Proof.Machine

/-- The base brightness of a light reading (R193): the chain of thresholds from the top, a NaN falling through. -/
def baseOf (c : Config) (lux : Binary32) : Byte :=
  if luxGe lux c.luxT3 then c.baseBright
  else if luxGe lux c.luxT2 then c.baseMid
  else if luxGe lux c.luxT1 then c.baseDim
  else c.baseDark

/-- The target brightness of a base under the motion bit (R194). -/
def targetOf (base : Byte) (m : Bool) : Byte :=
  if 0 < base ∧ m = true then Const.boost else base

/-- Step 1: base classification (R193). -/
def BcState.classify (c : Config) (lux : Binary32) (b : BcState) : BcState :=
  { b with base := baseOf c lux }

/-- Step 2: target selection (R194). -/
def BcState.selectTarget (m : Bool) (b : BcState) : BcState :=
  { b with target := targetOf b.base m }

/-- To start a curve: write the phase, counter to 0, step start to the current brightness (R195). -/
def BcState.startCurve (p : Phase) (b : BcState) : BcState :=
  { b with phase := p, stepCount := 0, stepStart := b.current }

/-- Step 3: phase transition (R195). -/
def BcState.transition (b : BcState) : BcState :=
  if b.current < b.target then
    if b.phase = .rising then b else b.startCurve .rising
  else if b.target < b.current then
    if b.phase = .falling then b else b.startCurve .falling
  else { b with phase := .idle }

/-- The rising curve at step `n` from `start` to `target`, exact integers and one division (R199, R201). -/
def risingValue (c : Config) (start target : Byte) (n : Nat) : Int :=
  start.toNat +
    quotient c.curveRound (((target.toNat : Int) - start.toNat) * n * n) (c.riseSteps * c.riseSteps)

/-- The falling curve at step `n` (R200, R201). -/
def fallingValue (c : Config) (start target : Byte) (n : Nat) : Int :=
  start.toNat -
    quotient c.curveRound (((start.toNat : Int) - target.toNat) * n * (2 * c.fallSteps - n))
      (c.fallSteps * c.fallSteps)

/-- `current <- target`, phase Idle: the snap of R202 and the branch of R203. -/
def BcState.snap (b : BcState) : BcState := { b with current := b.target, phase := .idle }

/-- Step 4 for one curve: `holds` is its boundary condition, `total` its number of steps, `value` its formula. The counter
is incremented first (R198). In states that cannot be reached the results are narrowed to their registers (log entry 6). -/
def BcState.evaluate (c : Config) (holds : Bool) (total : Nat) (value : Nat → Int) (b : BcState) : BcState :=
  if holds then
    let n := b.stepCount + 1
    let counted := { b with stepCount := n % 2 ^ c.stepw }
    if n ≤ total then { counted with current := BitVec.ofInt 8 (value n) } else counted.snap
  else b.snap

/-- Step 4: curve evaluation (R198 to R203). -/
def BcState.advance (c : Config) (b : BcState) : BcState :=
  match b.phase with
  | .idle => b
  | .rising =>
    b.evaluate c (decide (b.current < b.target)) c.riseSteps (risingValue c b.stepStart b.target)
  | .falling =>
    b.evaluate c (decide (b.target < b.current)) c.fallSteps (fallingValue c b.stepStart b.target)

/-- TICK on BC's registers (R190, R191). -/
def BcState.tick (c : Config) (lux : Binary32) (m : Bool) (b : BcState) : BcState :=
  (((b.classify c lux).selectTarget m).transition).advance c

/-- TICK (R190): returns `BC.current`. -/
def execTick (lux : Binary32) (m : Bool) (s : State) : Host.Outcome State Fault Refusal :=
  let bc := s.bc.tick s.cfg lux m
  .next ((s.setBc bc).deliver (.brightness bc.current))

end Sys2Proof.Machine
end

