-- ==== Sys2Proof/Machine/FrameDecoder.lean ====
section
/-! DEFINITION. The operations of unit FD, FEED and NOP (spec/42_frame_decoder.md). -/

namespace Sys2Proof.Machine

/-- `buf[3] == (buf[0] + buf[1] + buf[2]) & 0x7F`: the sum without loss, the fourth byte compared whole
(30_encoding.md R93, R152). -/
def frameValid (buf : Vector Byte 4) : Bool :=
  buf[3].toNat == (buf[0].toNat + buf[1].toNat + buf[2].toNat) &&& Const.checksumMask

/-- The outputs of a completed frame: bits 6:0 of bytes 1, 2 and 3 and the concentration
(30_encoding.md R92, R94; R140). -/
def frameOf (buf : Vector Byte 4) : Frame where
  header := buf[0]
  dataHigh := buf[1].setWidth 7
  dataLow := buf[2].setWidth 7
  checksum := buf[3].setWidth 7
  concentration :=
    BitVec.ofNat 14 ((buf[1].setWidth 7).toNat * Const.septetWeight + (buf[2].setWidth 7).toNat)

/-- FEED while searching (R141). -/
def FdState.search (byte : Byte) (fd : FdState) : FdState :=
  if byte = Const.header then
    { fd.store 0 byte with idx := 1, mode := .accumulatingPayload }
  else fd

/-- FEED while accumulating (R142, R143): the registers after it, and the frame it delivers. In the unreachable state with
index 0 it follows the pseudocode as it stands (log entry 6). -/
def FdState.accumulate (byte : Byte) (fd : FdState) : FdState × Option Frame :=
  let stored := fd.store fd.idx byte
  if fd.idx.val + 1 = Const.frameSize then
    ({ stored with idx := 0, mode := .searchingHeader },
      if frameValid stored.buf then some (frameOf stored.buf) else none)
  else ({ stored with idx := fd.idx + 1 }, none)

/-- FEED on FD's registers (R140). -/
def FdState.feed (byte : Byte) (fd : FdState) : FdState × Option Frame :=
  match fd.mode with
  | .searchingHeader => (fd.search byte, none)
  | .accumulatingPayload => fd.accumulate byte

/-- FEED (R140). -/
def execFeed (byte : Byte) (s : State) : Host.Outcome State Fault Refusal :=
  .next ((s.setFd (s.fd.feed byte).1).deliver (.frame (s.fd.feed byte).2))

/-- NOP (R150): no register of any unit changes, no output. -/
def execNop (s : State) : Host.Outcome State Fault Refusal :=
  .next (s.deliver .none)

end Sys2Proof.Machine
end

