-- ==== Sys2Proof/Machine/MotionLatch.lean ====
section
/-! DEFINITION. The operations of unit ML: TRIGGER, CLEAR, QUERY (spec/43_motion_latch.md). -/

namespace Sys2Proof.Machine

/-- TRIGGER (R170): `now` is stored as given; no maximum is taken (10_state.md R29). -/
def execTrigger (now : Timestamp) (s : State) : Host.Outcome State Fault Refusal :=
  .next ((s.setMl (MlState.set s.cfg now)).deliver .none)

/-- CLEAR (R173). -/
def execClear (s : State) : Host.Outcome State Fault Refusal :=
  .next ((s.setMl s.ml.clear).deliver .none)

/-- QUERY (R175): the value returned is the flag after the expiry. -/
def execQuery (now : Timestamp) (s : State) : Host.Outcome State Fault Refusal :=
  let ml := s.ml.expire s.cfg now
  .next ((s.setMl ml).deliver (.active ml.active))

end Sys2Proof.Machine
end

