-- ==== Sys2Proof/Machine/VoltageToPercent.lean ====
section
/-! DEFINITION. The operation of unit VP: PERCENT (spec/41_voltage_to_percent.md). -/

namespace Sys2Proof.Machine

/-- The index `i` in 0..5 with `X[i] <= mv < X[i+1]`, for `X[0] <= mv < X[6]` (R120, R123). -/
def segmentIndex (c : Config) (mv : Int) : Fin 6 :=
  if mv < c.vpX[1] then 0
  else if mv < c.vpX[2] then 1
  else if mv < c.vpX[3] then 2
  else if mv < c.vpX[4] then 3
  else if mv < c.vpX[5] then 4
  else 5

/-- `Y[i] + (mv - X[i]) * (Y[i+1] - Y[i]) / (X[i+1] - X[i])`, made an integer by `VP_ROUND` (R124). -/
def segmentValue (c : Config) (mv : Int) (i : Fin 6) : Int :=
  c.vpY[i.val] +
    quotient c.vpRound ((mv - c.vpX[i.val]) * ((c.vpY[i.val + 1] : Int) - c.vpY[i.val]))
      (c.vpX[i.val + 1] - c.vpX[i.val])

/-- The percentage of a voltage (R120), a mathematical integer. -/
def percentOf (c : Config) (mv : Int) : Int :=
  if mv < c.vpX[0] then 0
  else if c.vpX[6] ≤ mv then 100
  else segmentValue c mv (segmentIndex c mv)

/-- PERCENT (R120): reads and writes no register. -/
def execPercent (mv : Int) (s : State) : Host.Outcome State Fault Refusal :=
  .next (s.deliver (.pct (BitVec.ofInt 7 (percentOf s.cfg mv))))

end Sys2Proof.Machine
end

