-- ==== Sys2Proof/Machine/Dispatch.lean ====
section
/-! DEFINITION. One arm per operation (spec/30_encoding.md R99). -/

namespace Sys2Proof.Machine

def exec (i : Instr) (s : State) : Host.Outcome State Fault Refusal :=
  match i with
  | .nop => Sys2Proof.Machine.execNop s
  | .percent mv => Sys2Proof.Machine.execPercent mv s
  | .feed byte => Sys2Proof.Machine.execFeed byte s
  | .trigger now => Sys2Proof.Machine.execTrigger now s
  | .clear => Sys2Proof.Machine.execClear s
  | .query now => Sys2Proof.Machine.execQuery now s
  | .tick lux m => Sys2Proof.Machine.execTick lux m s

end Sys2Proof.Machine
end

