-- ==== Sys2Proof/Machine/Present.lean ====
section
/-! DEFINITION. Performing what the environment presents: one word on one channel, and one instant of the environment
(spec/20_memory.md R70 to R72, spec/70_reset_and_hazards.md R260). -/

namespace Sys2Proof.Machine

/-- Perform one word of one channel: the operation it stands for, or the refusal of a reserved word (30_encoding.md R100,
R103). Each operation is atomic (R70). -/
def perform (ch : Channel) (w : TW) (s : State) : Host.Outcome State Fault Refusal :=
  match decodeOn s.cfg ch w with
  | .ok i => exec i s
  | .error e => .refused (.reservedWord e)

/-- What is presented at this instant, and what is left to present. On a coincidence "it performs the channel P operation
first and the TRIGGER second" (R72): the word of channel T stays, alone, for the next step (log entry 7). After the end of the list
nothing is presented. -/
def State.present (s : State) : Presented × State :=
  match s.env with
  | [] => (.nothing, s)
  | .both wP wT :: rest => (.onP wP, { s with env := .onT wT :: rest })
  | .nothing :: rest => (.nothing, { s with env := rest })
  | .onP w :: rest => (.onP w, { s with env := rest })
  | .onT w :: rest => (.onT w, { s with env := rest })
  | .reset :: rest => (.reset, { s with env := rest })

/-- One instant: an instant at which nothing is presented is a NOP (30_encoding.md R99). -/
def respond (e : Presented) (s : State) : Host.Outcome State Fault Refusal :=
  match e with
  | .nothing => exec .nop s
  | .onP w => perform .p w s
  | .onT w => perform .t w s
  | .both wP _ => perform .p wP s
  | .reset => .next s.resetEvent

end Sys2Proof.Machine
end

