-- ==== Sys2Proof/Machine/Step.lean ====
section
/-! DEFINITION. One step of the machine: the core performs, atomically, the one operation the environment presents next
(spec/20_memory.md R70, R71). There is no program counter and no fetch (spec/10_state.md R21, 20_memory.md R80). -/

namespace Sys2Proof.Machine

/-- One step. -/
def step (s : State) : Host.Outcome State Fault Refusal :=
  respond s.present.1 s.present.2

/-- `s` with a word presented first, on channel P, which accepts all seven operations (30_encoding.md R100). -/
def State.withFetchWord (s : State) (nbits w : Nat) : State :=
  { s with env := .onP (BitVec.ofNat 48 (w % 2 ^ nbits)) :: s.env }

end Sys2Proof.Machine
end

