-- ==== Sys2Proof/Machine/Trace.lean ====
section
/-! DEFINITION. Runs of operations taken as data, and the notations of the spec's traces (spec/30_encoding.md R104, R105;
spec/70_reset_and_hazards.md R273; log entry 12). -/

namespace Sys2Proof.Machine

/-- Perform operations one after the other: the state after the last one and the outputs, one per operation (R273). -/
def runOps : List Instr → State → Option (State × List Output)
  | [], s => some (s, [])
  | i :: rest, s =>
    match exec i s with
    | .next t => (runOps rest t).map fun r => (r.1, t.out :: r.2)
    | .fault _ => none
    | .refused _ => none

/-- `FEEDS b0 b1 ... bn` (R105). -/
def feeds (bytes : List Byte) : List Instr := bytes.map .feed

/-- `TICKS n, lux, m` (R105). -/
def ticks (n : Nat) (lux : Binary32) (m : Bool) : List Instr := List.replicate n (.tick lux m)

/-- The bit an output carries to the poller; only QUERY returns one. -/
def Output.motion : Output → Bool
  | .active a => a
  | .none => false
  | .pct _ => false
  | .frame _ => false
  | .brightness _ => false

/-- `POLL now, lux` (R105): QUERY, then TICK with the bit the QUERY returned. The TRIGGER operations of channel T that fall
between the two are an argument. -/
def poll (now : Timestamp) (lux : Binary32) (between : List Timestamp) (s : State) :
    Option (State × List Output) :=
  match exec (.query now) s with
  | .next q =>
    (runOps (between.map .trigger ++ [.tick lux q.out.motion]) q).map fun r => (r.1, q.out :: r.2)
  | .fault _ => none
  | .refused _ => none

/-- One line of a trace, `<channel>: <MNEMONIC> <operands> -> <outputs>`, as data (R104). -/
structure TraceLine where
  channel : Channel
  op : Instr
  out : Output
  deriving DecidableEq, Repr

/-- What the environment presents for a line. -/
def TraceLine.presented (c : Config) (l : TraceLine) : Presented :=
  match l.channel with
  | .p => .onP (encode c l.op)
  | .t => .onT (encode c l.op)

/-- A trace holds from a state when every line's channel may carry its operation and the outputs are what the rules give;
"lines are performed top to bottom" (R104). -/
def traceHolds : List TraceLine → State → Bool
  | [], _ => true
  | l :: rest, s =>
    match exec l.op s with
    | .next t => l.op.legalOn l.channel && (t.out == l.out) && traceHolds rest t
    | .fault _ => false
    | .refused _ => false

end Sys2Proof.Machine
end

