-- ==== Sys2Proof/Safety.lean ====
section
/-! DEFINITION. The terms claims use: the invariants of the registers (spec/10_state.md R26, R36), a legal environment
(spec/30_encoding.md R103), the environment's duties (spec/70_reset_and_hazards.md R265 to R272, premises of claims and
never checks of a step), the latch on unbounded time, and when two states cannot be told apart from outside (R40).
The invariants, the duties and the numbers of a word's fields are written from the rules, not from the machine's definitions. -/

namespace Sys2Proof

/-! ### A word by the numbers of its bits -/

/-- `w[hi:lo]` as a number, in the notation of 00_scope.md R14. -/
def bitsOf (w : TW) (hi lo : Nat) : Nat := w.toNat / 2 ^ lo % 2 ^ (hi - lo + 1)

/-- R103 without its channel clause: `op` is 0x07 to 0xFF, or `z` is not 0, or `m` is 1 with an `op` other than 0x06, or an
`arg` bit is 1 that R101 says must be 0, which are the bits from a timestamp's or a voltage's width up. -/
abbrev reservedByFields (c : Config) (w : TW) : Prop :=
  7 ≤ bitsOf w 47 40 ∨ bitsOf w 39 33 ≠ 0 ∨ (bitsOf w 32 32 = 1 ∧ bitsOf w 47 40 ≠ 6) ∨
    ((bitsOf w 47 40 = 0 ∨ bitsOf w 47 40 = 4) ∧ bitsOf w 31 0 ≠ 0) ∨
    (bitsOf w 47 40 = 1 ∧ 2 ^ c.mvw ≤ bitsOf w 31 0) ∨ (bitsOf w 47 40 = 2 ∧ bitsOf w 31 8 ≠ 0) ∨
    ((bitsOf w 47 40 = 3 ∨ bitsOf w 47 40 = 5) ∧ 2 ^ c.tsw ≤ bitsOf w 31 0)

/-! ### The clock and the poll, at a configuration's width of timestamps -/

/-- The reading of one millisecond clock that counts up modulo `2^TSW` (R268). -/
def Config.clock (c : Config) (time : Nat) : Timestamp := BitVec.ofNat 32 (time % 2 ^ c.tsw)

/-- The span of R269: "less than `2^TSW - MOTION_TIMEOUT` milliseconds". -/
def Config.pollSpan (c : Config) : Nat := 2 ^ c.tsw - c.motionTimeout

end Sys2Proof

namespace Sys2Proof.Machine

/-! ### Invariants -/

/-- R26: searching if and only if the index is 0; while accumulating, element 0 holds the header. -/
abbrev FdState.Inv (fd : FdState) : Prop :=
  (fd.mode = .searchingHeader ↔ fd.idx = 0) ∧
    (fd.mode = .accumulatingPayload → fd.buf[0] = Const.header)

/-- The timestamp is of `TSW` bits (R28). -/
abbrev MlState.Inv (c : Config) (ml : MlState) : Prop := ml.last.toNat < 2 ^ c.tsw

/-- R36 (a) and (b), and the range of the counter (R34, 93_implementation_defined.md U11). -/
abbrev BcState.Inv (c : Config) (b : BcState) : Prop :=
  (b.phase = .idle → b.current = b.target) ∧
    (b.phase = .rising → b.stepStart ≤ b.current ∧ b.current ≤ b.target ∧
      1 ≤ b.stepCount ∧ b.stepCount ≤ c.riseSteps) ∧
    (b.phase = .falling → b.target ≤ b.current ∧ b.current ≤ b.stepStart ∧
      1 ≤ b.stepCount ∧ b.stepCount ≤ c.fallSteps) ∧
    b.stepCount ≤ max c.riseSteps c.fallSteps + 1

/-- The legal states: a configuration the rules speak of, and the invariants of the units. -/
abbrev State.Inv (s : State) : Prop :=
  s.cfg.wf = true ∧ s.fd.Inv ∧ s.ml.Inv s.cfg ∧ s.bc.Inv s.cfg

/-- Whether an output is one the operation returns (R39): its kind, and the range of `pct`. -/
abbrev Output.fits (i : Instr) (o : Output) : Prop :=
  match i with
  | .nop => o = .none
  | .percent _ => ∃ v, o = .pct v ∧ v.toNat ≤ 100
  | .feed _ => ∃ f, o = .frame f
  | .trigger _ => o = .none
  | .clear => o = .none
  | .query _ => ∃ a, o = .active a
  | .tick _ _ => ∃ v, o = .brightness v

/-! ### A legal environment -/

/-- A word a channel may carry (R103). -/
def legalWord (c : Config) (ch : Channel) (w : TW) : Bool :=
  match decodeOn c ch w with
  | .ok _ => true
  | .error _ => false

/-- Only words of operations are presented. -/
def Presented.legal (c : Config) : Presented → Bool
  | .nothing => true
  | .onP w => legalWord c .p w
  | .onT w => legalWord c .t w
  | .both wP wT => legalWord c .p wP && legalWord c .t wT
  | .reset => true

/-- The duty "only the words of R99 are presented" (R266), with "one context owns FEED, one context owns TICK" (R267):
channel T carries TRIGGER alone. -/
def State.envLegal (s : State) : Bool := s.env.all (Presented.legal s.cfg)

/-- What a register holds, without the model's own fields. -/
abbrev State.sameRegisters (s t : State) : Prop := s.fd = t.fd ∧ s.ml = t.ml ∧ s.bc = t.bc

/-! ### Duties about time -/

/-- An operation with the true time, in milliseconds and unbounded, at which its context read the clock. -/
structure TimedOp where
  time : Nat
  op : Instr
  deriving DecidableEq, Repr

/-- The operations of a timed sequence. -/
def opsOf (l : List TimedOp) : List Instr := l.map TimedOp.op

/-- A `now` operand is a reading of the clock (R268). -/
def TimedOp.stamped (c : Config) (o : TimedOp) : Bool :=
  match o.op with
  | .trigger now => now == c.clock o.time
  | .query now => now == c.clock o.time
  | .nop => true
  | .percent _ => true
  | .feed _ => true
  | .clear => true
  | .tick _ _ => true

/-- R268: every `now` is a clock reading and is not earlier than that of any TRIGGER performed before it; `latest` is the
latest of those. -/
def Duty.timeForward (c : Config) : Nat → List TimedOp → Prop
  | _, [] => True
  | latest, o :: rest =>
    o.stamped c = true ∧
      match o.op with
      | .trigger _ => latest ≤ o.time ∧ Duty.timeForward c o.time rest
      | .query _ => latest ≤ o.time ∧ Duty.timeForward c latest rest
      | .nop => Duty.timeForward c latest rest
      | .percent _ => Duty.timeForward c latest rest
      | .feed _ => Duty.timeForward c latest rest
      | .clear => Duty.timeForward c latest rest
      | .tick _ _ => Duty.timeForward c latest rest

/-- The answer of a QUERY; no other operation gives one. -/
def Output.answer : Output → Option Bool
  | .active a => .some a
  | .none => .none
  | .pct _ => .none
  | .frame _ => .none
  | .brightness _ => .none

/-- The latch on unbounded time: the true time of the trigger in force, if any (R171, R175, R179). -/
def Latch.perform (timeout : Nat) (l : Option Nat) (o : TimedOp) : Option Nat :=
  match o.op with
  | .trigger _ => some o.time
  | .clear => none
  | .query _ => l.filter fun t => decide (o.time - t ≤ timeout)
  | .nop => l
  | .percent _ => l
  | .feed _ => l
  | .tick _ _ => l

/-- The bits the latch on unbounded time answers to the QUERY operations of a sequence, in order. -/
def Latch.answers (timeout : Nat) : Option Nat → List TimedOp → List Bool
  | _, [] => []
  | l, o :: rest =>
    let l' := Latch.perform timeout l o
    match o.op with
    | .query _ => l'.isSome :: Latch.answers timeout l' rest
    | .trigger _ => Latch.answers timeout l' rest
    | .clear => Latch.answers timeout l' rest
    | .nop => Latch.answers timeout l' rest
    | .percent _ => Latch.answers timeout l' rest
    | .feed _ => Latch.answers timeout l' rest
    | .tick _ _ => Latch.answers timeout l' rest

/-- A time comes before a moment by which a QUERY is due, if one is due. -/
def beforeDue (time : Nat) (due : Option Nat) : Prop :=
  match due with
  | some d => time < d
  | none => True

/-- R269, word for word: while the latch is active a QUERY is performed less than `2^TSW - MOTION_TIMEOUT` milliseconds
after the last TRIGGER. `due` is the moment before which that QUERY is still to come; CLEAR ends the duty. No operation
comes at or after a due moment, and neither does `horizon`, the time up to which the sequence tells all that was performed:
so the QUERY was performed, and in time. -/
def Duty.queriedInTime (c : Config) (horizon : Nat) : Option Nat → List TimedOp → Prop
  | due, [] => beforeDue horizon due
  | due, o :: rest =>
    beforeDue o.time due ∧
      match o.op with
      | .trigger _ => Duty.queriedInTime c horizon (some (o.time + c.pollSpan)) rest
      | .query _ => Duty.queriedInTime c horizon none rest
      | .clear => Duty.queriedInTime c horizon none rest
      | .nop => Duty.queriedInTime c horizon due rest
      | .percent _ => Duty.queriedInTime c horizon due rest
      | .feed _ => Duty.queriedInTime c horizon due rest
      | .tick _ _ => Duty.queriedInTime c horizon due rest

/-- "Poll often enough" (R269, its title): the same duty, due again after every QUERY that leaves the latch active, so that
no gap between polls of an active latch reaches `2^TSW - MOTION_TIMEOUT`. DEDUCED (log entry 10): one QUERY after the last
TRIGGER does not keep a later one from the wrap. `l` is the latch on unbounded time. -/
def Duty.polledOften (c : Config) (horizon : Nat) : Option Nat → Option Nat → List TimedOp → Prop
  | _, due, [] => beforeDue horizon due
  | l, due, o :: rest =>
    let l' := Latch.perform c.motionTimeout l o
    beforeDue o.time due ∧
      match o.op with
      | .trigger _ => Duty.polledOften c horizon l' (some (o.time + c.pollSpan)) rest
      | .query _ => Duty.polledOften c horizon l' (l'.map fun _ => o.time + c.pollSpan) rest
      | .clear => Duty.polledOften c horizon l' none rest
      | .nop => Duty.polledOften c horizon l' due rest
      | .percent _ => Duty.polledOften c horizon l' due rest
      | .feed _ => Duty.polledOften c horizon l' due rest
      | .tick _ _ => Duty.polledOften c horizon l' due rest

/-- What the polls achieve (R177, R269), in the form a claim needs: a QUERY performed while a trigger is in force comes less
than `2^TSW` milliseconds after it. DEDUCED (log entry 10): weaker than `Duty.polledOften`, which gives it. -/
def Duty.queriedBeforeWrap (c : Config) : Option Nat → List TimedOp → Prop
  | _, [] => True
  | l, o :: rest =>
    (match o.op, l with
      | .query _, some t => o.time < t + 2 ^ c.tsw
      | .query _, none => True
      | .trigger _, _ => True
      | .clear, _ => True
      | .nop, _ => True
      | .percent _, _ => True
      | .feed _, _ => True
      | .tick _ _, _ => True) ∧
      Duty.queriedBeforeWrap c (Latch.perform c.motionTimeout l o) rest

/-- R270: TICK is strictly periodic; `due` is the time of the next one. -/
def Duty.cadence (c : Config) : Nat → List TimedOp → Prop
  | _, [] => True
  | due, o :: rest =>
    match o.op with
    | .tick _ _ => o.time = due ∧ Duty.cadence c (due + c.tickPeriod) rest
    | .nop => Duty.cadence c due rest
    | .percent _ => Duty.cadence c due rest
    | .feed _ => Duty.cadence c due rest
    | .trigger _ => Duty.cadence c due rest
    | .clear => Duty.cadence c due rest
    | .query _ => Duty.cadence c due rest

/-- The byte an operation feeds. -/
def Instr.fedByte : Instr → Option Byte
  | .feed b => some b
  | .nop => none
  | .percent _ => none
  | .trigger _ => none
  | .clear => none
  | .query _ => none
  | .tick _ _ => none

/-- R271: each byte the serial receiver delivers is fed once, in the order received. -/
def Duty.bytesFedOnce (received : List Byte) (ops : List Instr) : Prop :=
  ops.filterMap Instr.fedByte = received

/-- The table's short form of R272 ("`m` of TICK comes from the latest QUERY"): the motion bit of a TICK is the bit the latest
QUERY returned, however old; `bit` is that bit. The rule itself is `Duty.polled`. The outputs are those of the operations,
one each. -/
def Duty.motionBit : Bool → List (Instr × Output) → Prop
  | _, [] => True
  | bit, (i, out) :: rest =>
    match i with
    | .query _ => Duty.motionBit out.motion rest
    | .tick _ m => m = bit ∧ Duty.motionBit bit rest
    | .nop => Duty.motionBit bit rest
    | .percent _ => Duty.motionBit bit rest
    | .feed _ => Duty.motionBit bit rest
    | .trigger _ => Duty.motionBit bit rest
    | .clear => Duty.motionBit bit rest

/-- An operation as the environment performed it: when, on which channel, what it returned, and what the caller's auto/manual
flag was, which the caller holds and no unit reads (00_scope.md R8). -/
structure Performed extends TimedOp where
  channel : Channel
  out : Output
  manual : Bool
  deriving DecidableEq, Repr

/-- R272 with the shape of POLL (30_encoding.md R105): the `m` of a TICK is the bit returned by a QUERY performed just before
it, with nothing of channel P between the two, and with the current time, the clock's reading at the time of the TICK: POLL has
one `now`. `fresh` is the operand and the answer of a QUERY after which channel P has performed nothing; a NOP is nothing
(R99), and the TRIGGERs of channel T may fall between. One QUERY serves one TICK (log entry 13). -/
def Duty.polled (c : Config) : Option (Timestamp × Bool) → List Performed → Prop
  | _, [] => True
  | fresh, o :: rest =>
    match o.channel, o.op with
    | .t, _ => Duty.polled c fresh rest
    | .p, .query now => Duty.polled c (some (now, o.out.motion)) rest
    | .p, .tick _ m => fresh = some (c.clock o.time, m) ∧ Duty.polled c none rest
    | .p, .nop => Duty.polled c fresh rest
    | .p, .percent _ => Duty.polled c none rest
    | .p, .feed _ => Duty.polled c none rest
    | .p, .trigger _ => Duty.polled c none rest
    | .p, .clear => Duty.polled c none rest

/-- R272, second sentence: "While the caller's mode flag says manual, the caller issues no TICK". -/
def Duty.noTickInManual (l : List Performed) : Prop :=
  ∀ o ∈ l, o.manual = true → ∀ lux m, o.op ≠ .tick lux m

/-! ### Well-formed byte streams (42_frame_decoder.md R149) -/

/-- A piece of a well-formed stream: a byte other than the header, or a true frame whose bytes 1 to 3 have bit 7 clear and
whose checksum is right (30_encoding.md R90). -/
inductive Piece where
  | filler (b : Byte)
  | frame (dataHigh dataLow : Septet)
  deriving DecidableEq, Repr

/-- The checksum byte of a conforming sender (R90). -/
def checksumByte (dataHigh dataLow : Septet) : Byte :=
  BitVec.ofNat 8 ((Const.header.toNat + dataHigh.toNat + dataLow.toNat) % 128)

/-- A filler byte is not the header. -/
def Piece.wellFormed : Piece → Bool
  | .filler b => b != Const.header
  | .frame _ _ => true

/-- The bytes of a piece, first received first. -/
def Piece.bytes : Piece → List Byte
  | .filler b => [b]
  | .frame h l => [Const.header, h.setWidth 8, l.setWidth 8, checksumByte h l]

/-- The frame a piece should deliver. -/
def trueFrame (h l : Septet) : Frame where
  header := Const.header
  dataHigh := h
  dataLow := l
  checksum := (checksumByte h l).setWidth 7
  concentration := h ++ l

/-! ### What cannot be observed (R40, 93_implementation_defined.md U4 and U10) -/

/-- FD's registers agree but for buffer elements not yet written in the current frame. -/
abbrev FdState.agree (a b : FdState) : Prop :=
  a.mode = b.mode ∧ a.idx = b.idx ∧
    (a.mode = .accumulatingPayload → ∀ j : Fin 4, j < a.idx → a.buf[j.val] = b.buf[j.val])

/-- ML's registers agree but for the timestamp of an inactive latch (R28). -/
abbrev MlState.agree (a b : MlState) : Prop :=
  a.active = b.active ∧ (a.active = true → a.last = b.last)

/-- BC's registers agree but for base and target, which every TICK rewrites, and the counter and step start of an idle
controller (R34, R35). -/
abbrev BcState.agree (a b : BcState) : Prop :=
  a.current = b.current ∧ a.phase = b.phase ∧
    (a.phase ≠ .idle → a.stepCount = b.stepCount ∧ a.stepStart = b.stepStart)

/-- Two states of one configuration that agree on every register a later operation can read. -/
abbrev State.agree (s t : State) : Prop :=
  s.cfg = t.cfg ∧ s.fd.agree t.fd ∧ s.ml.agree t.ml ∧ s.bc.agree t.bc

end Sys2Proof.Machine
end

