-- ==== Sys2Proof/Certificates/Slice0/Obligations.lean ====
section
/-! DEFINITION. The statements for the provers, in the order of the spec's files. Each docstring names the rule of spec/ it
formalises or the sections it rests on. -/

open Sys2Proof Sys2Proof.Machine

/-! ### Encoding (30_encoding.md) -/

/-- Derived from R13, R97, R99, R101: at every width of the two operands whose width is a parameter, every operation, with
every operand that fits, survives the word. -/
def Obligations.DecodeOfEncodeIsTheOperation : Prop :=
  ∀ (c : Config) (i : Instr), c.widthsFit = true → i.fits c = true → decode c (encode c i) = .ok i

/-- Derived from R13, R97, R99, R101, R103: at every width a word has one meaning, no bit of it is dropped, and the operand
read fits its width. -/
def Obligations.EncodeOfDecodeIsTheWord : Prop :=
  ∀ (c : Config) (w : TW) (i : Instr), decode c w = .ok i → encode c i = w ∧ i.fits c = true

/-- R103. A reserved word presented to the model is refused, and no other word is; on channel T every word but a TRIGGER is
reserved. At every width of the parameters. -/
def Obligations.ReservedWordsAndNoOthersAreRefused : Prop :=
  ∀ (s : State) (w : TW) (rest : List Presented),
    (s.env = .onP w :: rest →
      ((∃ e, step s = .refused (.reservedWord e)) ↔ reservedByFields s.cfg w)) ∧
    (s.env = .onT w :: rest →
      ((∃ e, step s = .refused (.reservedWord e)) ↔ reservedByFields s.cfg w ∨ bitsOf w 47 40 ≠ 3))

/-- R101. Where each operand of a decoded word comes from, and which bits are 0: at every width, and in the rule's own bit
numbers at the widths this hardware takes. -/
def Obligations.OperandsAreAssembledFromTheirBits : Prop :=
  ∀ (c : Config) (w : TW),
    (∀ mv, decode c w = .ok (.percent mv) →
      bitsOf w 31 0 < 2 ^ c.mvw ∧
        mv = (if 2 * bitsOf w 31 0 < 2 ^ c.mvw then (bitsOf w 31 0 : Int) else bitsOf w 31 0 - 2 ^ c.mvw) ∧
        (c.mvw = 16 → bitsOf w 31 16 = 0 ∧
          mv = (if bitsOf w 15 0 < 2 ^ 15 then (bitsOf w 15 0 : Int) else bitsOf w 15 0 - 2 ^ 16))) ∧
    (∀ b, decode c w = .ok (.feed b) → b.toNat = bitsOf w 7 0 ∧ bitsOf w 31 8 = 0) ∧
    (∀ now, decode c w = .ok (.trigger now) ∨ decode c w = .ok (.query now) →
      now.toNat = bitsOf w 31 0 ∧ bitsOf w 31 0 < 2 ^ c.tsw) ∧
    (decode c w = .ok .clear ∨ decode c w = .ok .nop → bitsOf w 31 0 = 0) ∧
    (∀ lux m, decode c w = .ok (.tick lux m) →
      lux.toNat = bitsOf w 31 0 ∧ (m = true ↔ bitsOf w 32 32 = 1))

/-- Derived from spec/opcode_table.json: the decoder reads a word as a row's operation exactly when the word matches the
row under its mask. The table is written at the widths this hardware takes. -/
def Obligations.DecoderAgreesWithTheOpcodeTable : Prop :=
  ∀ w : TW,
    (∀ i, decode Config.default w = .ok i → w &&& i.tableMask = i.tableMatch) ∧
    (∀ j : Instr, w &&& j.tableMask = j.tableMatch →
      ∃ i, decode Config.default w = .ok i ∧ i.tableMatch = j.tableMatch)

/-- Sanity: words the spec writes out (R98, R120, R140, R150, R170, R173; 95_test_vectors.md 2.3). -/
def Obligations.WordsWrittenInTheSpecDecode : Prop :=
  decode Config.default 0x000000000000 = .ok .nop ∧
    decode Config.default 0x010000000EA6 = .ok (.percent 3750) ∧
    decode Config.default 0x01000000FFFF = .ok (.percent (-1)) ∧
    decode Config.default 0x0200000000A5 = .ok (.feed 0xA5) ∧
    decode Config.default 0x0300000003FC = .ok (.trigger 1020) ∧
    decode Config.default 0x040000000000 = .ok .clear ∧
    decode Config.default 0x050000001770 = .ok (.query 6000) ∧
    decode Config.default 0x060142480000 = .ok (.tick 0x42480000 true)

/-! ### The step (20_memory.md, 70_reset_and_hazards.md) -/

/-- Derived from R70, R71, R72, R97 to R100: a step performs the operation of the word presented next, on the state the steps
before left. The model's choice, and no rule: that what is presented is a list from which the step takes the word
(log entry 1), and that a coincidence, whose order R72 gives, is two steps, the word of channel T staying alone for the
second (log entry 7). -/
def Obligations.StepPerformsThePresentedOperation : Prop :=
  ∀ (s : State) (w wT : TW) (i : Instr) (rest : List Presented), decode s.cfg w = .ok i →
    (s.env = .onP w :: rest → step s = exec i { s with env := rest }) ∧
    (s.env = .onT w :: rest → i.legalOn .t = true → step s = exec i { s with env := rest }) ∧
    (s.env = .both w wT :: rest → step s = exec i { s with env := .onT wT :: rest })

/-- Derived from R99 ("for an instant at which nothing is presented") and log entry 1: then the step is a NOP. -/
def Obligations.StepWithNothingPresentedIsNop : Prop :=
  ∀ (s : State) (rest : List Presented),
    (s.env = [] → step s = .next { s with out := .none }) ∧
    (s.env = .nothing :: rest → step s = .next { s with env := rest, out := .none })

/-- R72. A coincidence performs the channel P operation first and the TRIGGER second, so the trigger's writes remain. -/
def Obligations.CoincidencePerformsPThenTrigger : Prop :=
  ∀ (s : State) (wP wT : TW) (i : Instr) (now : Timestamp) (rest : List Presented),
    s.env = .both wP wT :: rest → decode s.cfg wP = .ok i → decode s.cfg wT = .ok (.trigger now) →
    ∃ p, exec i { s with env := .onT wT :: rest } = .next p ∧ step s = .next p ∧
      step p = .next { p with ml := ⟨true, now⟩, out := .none, env := rest }

/-- R260, R262. The reset event discards a partly received frame, forgets a pending motion, drops the brightness to 0 and
leaves the parameters. What it leaves in `FD.buf` the spec does not say, and neither does this statement. -/
def Obligations.ResetEventGivesTheResetState : Prop :=
  ∀ (s : State) (rest : List Presented), s.env = .reset :: rest →
    ∃ t, step s = .next t ∧ t.fd.mode = .searchingHeader ∧ t.fd.idx = 0 ∧ t.ml = ⟨false, 0⟩ ∧
      t.bc = ⟨0, 0, 0, .idle, 0, 0⟩ ∧ t.brightness = 0 ∧ t.cfg = s.cfg ∧ t.env = rest

/-- R42. The values of the reset state; nothing about `FD.buf`, which the spec leaves unspecified. -/
def Obligations.ResetStateHasTheSpecifiedValues : Prop :=
  State.reset.fd.mode = .searchingHeader ∧ State.reset.fd.idx = 0 ∧
    State.reset.ml.active = false ∧ State.reset.ml.last = 0 ∧
    State.reset.bc.current = 0 ∧ State.reset.bc.target = 0 ∧ State.reset.bc.base = 0 ∧
    State.reset.bc.phase = .idle ∧ State.reset.bc.stepCount = 0 ∧ State.reset.bc.stepStart = 0

/-- Derived from R13 (column "default"), R12 and R192 (the thresholds' encodings) and log entry 3: the parameters after
reset are those this hardware takes. -/
def Obligations.ResetStateHasThisHardwaresParameters : Prop :=
  State.reset.cfg.tsw = 32 ∧ State.reset.cfg.mvw = 16 ∧ State.reset.cfg.stepw = 8 ∧ Const.boost = 255 ∧ Const.header = 0xA5 ∧
    State.reset.cfg.motionTimeout = 5000 ∧
    State.reset.cfg.luxT1 = 0x42C80000 ∧ State.reset.cfg.luxT2 = 0x43960000 ∧ State.reset.cfg.luxT3 = 0x43FA0000 ∧
    State.reset.cfg.baseDark = 110 ∧ State.reset.cfg.baseDim = 80 ∧ State.reset.cfg.baseMid = 50 ∧
    State.reset.cfg.baseBright = 0 ∧ State.reset.cfg.riseSteps = 40 ∧ State.reset.cfg.fallSteps = 60 ∧
    State.reset.cfg.tickPeriod = 50 ∧ State.reset.cfg.curveRound = .trunc ∧
    State.reset.cfg.vpX = #v[3000, 3300, 3600, 3700, 3800, 4000, 4200] ∧
    State.reset.cfg.vpY = #v[0, 5, 20, 40, 60, 85, 100] ∧ State.reset.cfg.vpRound = .trunc

/-- Derived from R26, R36, R42: the invariants hold at reset, and the parameters of this hardware are well formed. -/
def Obligations.ResetStateIsLegal : Prop := State.reset.Inv

/-- Derived from R26, R28, R34, R36, R262: every step keeps the invariants of the registers. -/
def Obligations.EveryStepKeepsTheInvariants : Prop :=
  ∀ s t : State, s.Inv → step s = .next t → t.Inv

/-- R230. Every operation is total: for every state and every operand it completes; from a legal state it leaves a legal
state and returns a well-formed output. -/
def Obligations.EveryOperationCompletes : Prop :=
  ∀ (i : Instr) (s : State),
    ∃ t, exec i s = .next t ∧ (s.Inv → t.Inv ∧ t.out.fits i)

/-- Derived from R273, R103: as long as the environment presents only legal words, no run stops. -/
def Obligations.LegalEnvironmentNeverStopsARun : Prop :=
  ∀ (k : Nat) (s : State), s.envLegal = true → ∃ t : State, Host.Core.run Sys2Proof.core k s = .next t

/-- Derived from R71, R104, R273: a trace presented as words, one line a word on its line's channel, is performed top to
bottom by the steps, each operation on the state the one before it left, and the trace's outputs hold exactly when they are
those of the operations. That what is presented is a list (log entry 1) and a trace is data (log entry 12) is the model's
choice. -/
def Obligations.PresentedTraceRunsTopToBottom : Prop :=
  ∀ (l : List TraceLine) (s : State) (rest : List Presented), s.cfg.widthsFit = true →
    (∀ x ∈ l, x.op.legalOn x.channel = true ∧ x.op.fits s.cfg = true) →
    s.env = l.map (TraceLine.presented s.cfg) ++ rest →
    ∃ t outs, runOps (l.map TraceLine.op) { s with env := rest } = some (t, outs) ∧
      Host.Core.run Sys2Proof.core l.length s = .next t ∧
      (traceHolds l s = true ↔ outs = l.map TraceLine.out)

/-- R263. Every operation is legal straight after reset, and no step changes the parameters. -/
def Obligations.ParametersNeverChange : Prop :=
  (∀ i : Instr, ∃ t, exec i State.reset = .next t) ∧
    (∀ s t : State, step s = .next t → t.cfg = s.cfg)

/-- Derived from R22 and R43: an operation writes its own unit's registers only and reads no other unit's. -/
def Obligations.UnitsShareNoRegisters : Prop :=
  ∀ (i : Instr) (s s' : State), s.cfg = s'.cfg →
    (i.unit = some .fd → s.fd = s'.fd) → (i.unit = some .ml → s.ml = s'.ml) →
    (i.unit = some .bc → s.bc = s'.bc) →
    ∃ t t', exec i s = .next t ∧ exec i s' = .next t' ∧ t.out = t'.out ∧
      t.cfg = s.cfg ∧ t.env = s.env ∧
      (if i.unit = some .fd then t.fd = t'.fd else t.fd = s.fd) ∧
      (if i.unit = some .ml then t.ml = t'.ml else t.ml = s.ml) ∧
      (if i.unit = some .bc then t.bc = t'.bc else t.bc = s.bc)

/-- Derived from R76: operations on different units commute, in the registers and in the outputs of each. -/
def Obligations.OperationsOnDifferentUnitsCommute : Prop :=
  ∀ (i j : Instr) (s : State), i.unit ≠ j.unit →
    ∃ a b c d, exec i s = .next a ∧ exec j a = .next b ∧ exec j s = .next c ∧ exec i c = .next d ∧
      b.sameRegisters d ∧ a.out = d.out ∧ b.out = c.out

/-! ### VoltageToPercent (41_voltage_to_percent.md) -/

/-- R124 with the clamps of R120: the percentage for every configuration the rules speak of and both roundings. -/
def Obligations.PercentFollowsTheSegmentFormula : Prop :=
  ∀ (mv : Int) (s : State), s.cfg.wf = true →
    ∃ p : BitVec 7, exec (.percent mv) s = .next { s with out := .pct p } ∧
      (mv < s.cfg.vpX[0] → p = 0) ∧ (s.cfg.vpX[6] ≤ mv → p = 100) ∧
      ∀ (i : Nat) (h : i < 6), s.cfg.vpX[i] ≤ mv → mv < s.cfg.vpX[i + 1] →
        (p.toNat : Int) =
          match s.cfg.vpRound with
          | .trunc =>
            s.cfg.vpY[i] + ((mv - s.cfg.vpX[i]) * ((s.cfg.vpY[i + 1] : Int) - s.cfg.vpY[i])) /
              (s.cfg.vpX[i + 1] - s.cfg.vpX[i])
          | .nearest =>
            s.cfg.vpY[i] + (2 * (mv - s.cfg.vpX[i]) * ((s.cfg.vpY[i + 1] : Int) - s.cfg.vpY[i]) +
              (s.cfg.vpX[i + 1] - s.cfg.vpX[i])) / (2 * (s.cfg.vpX[i + 1] - s.cfg.vpX[i]))

/-- R121, R122, R123: the clamps and the six segments at the parameters this hardware takes, with the slopes in lowest
terms that R123 lists. -/
def Obligations.PercentOfThisHardware : Prop :=
  ∀ (mv : Int) (s : State), s.cfg = Config.default →
    ∃ p : BitVec 7, exec (.percent mv) s = .next { s with out := .pct p } ∧
      (mv < 3000 → p = 0) ∧ (mv = 3000 → p = 0) ∧ (4200 ≤ mv → p = 100) ∧
      (3000 ≤ mv → mv < 3300 → (p.toNat : Int) = (mv - 3000) / 60) ∧
      (3300 ≤ mv → mv < 3600 → (p.toNat : Int) = 5 + (mv - 3300) / 20) ∧
      (3600 ≤ mv → mv < 3700 → (p.toNat : Int) = 20 + (mv - 3600) / 5) ∧
      (3700 ≤ mv → mv < 3800 → (p.toNat : Int) = 40 + (mv - 3700) / 5) ∧
      (3800 ≤ mv → mv < 4000 → (p.toNat : Int) = 60 + (mv - 3800) / 8) ∧
      (4000 ≤ mv → mv < 4200 → (p.toNat : Int) = 85 + 3 * (mv - 4000) / 40)

/-- Derived from R126 (a) and (b): 0 to 100, and monotone in the voltage, for every configuration the rules speak of and
both roundings. -/
def Obligations.PercentIsBoundedAndMonotone : Prop :=
  ∀ (a b : Int) (s : State), s.cfg.wf = true → a ≤ b →
    ∃ p q : BitVec 7, exec (.percent a) s = .next { s with out := .pct p } ∧
      exec (.percent b) s = .next { s with out := .pct q } ∧ p.toNat ≤ q.toNat ∧ q.toNat ≤ 100

/-- Derived from R126 (c): the smallest operands reaching selected results under truncation. -/
def Obligations.PercentReachesItsStepsAtTheListedVoltages : Prop :=
  ∀ (mv : Int) (s : State), s.cfg = Config.default →
    ∃ p : BitVec 7, exec (.percent mv) s = .next { s with out := .pct p } ∧
      ∀ k ∈ ([(1, 3060), (5, 3300), (6, 3320), (20, 3600), (21, 3605), (40, 3700), (41, 3705), (60, 3800),
          (61, 3808), (85, 4000), (86, 4014), (99, 4187), (100, 4200)] : List (Nat × Int)),
        (k.1 ≤ p.toNat ↔ k.2 ≤ mv)

/-- R127. PERCENT reads and writes no register: its result is the same whatever the registers hold, it may be performed any
number of times, and it commutes with every operation. -/
def Obligations.PercentIsPure : Prop :=
  ∀ (mv : Int) (c : Config),
    ∃ p : BitVec 7, ∀ s : State, s.cfg = c →
      exec (.percent mv) s = .next { s with out := .pct p } ∧
      ∀ i : Instr, ∃ t, exec i s = .next t ∧ exec i { s with out := .pct p } = .next t ∧
        exec (.percent mv) t = .next { t with out := .pct p }

/-! ### FrameDecoder (42_frame_decoder.md, 30_encoding.md section 1) -/

/-- R141. A byte fed while searching: the header begins accumulation, any other byte changes no register. -/
def Obligations.FeedWhileSearching : Prop :=
  ∀ (b : Byte) (s : State), s.fd.mode = .searchingHeader →
    exec (.feed b) s = .next
      (if b = 0xA5 then
        { s with fd := ⟨.accumulatingPayload, 1, s.fd.buf.set 0 0xA5⟩, out := .frame none }
      else { s with out := .frame none })

/-- R142. A byte fed while accumulating that does not complete a frame: stored at the index, which advances by one; every
byte value, the header's too. -/
def Obligations.FeedWhileAccumulating : Prop :=
  ∀ (b : Byte) (s : State), s.fd.mode = .accumulatingPayload → s.fd.idx = 1 ∨ s.fd.idx = 2 →
    ∃ fd : FdState, exec (.feed b) s = .next { s with fd := fd, out := .frame none } ∧
      fd.mode = .accumulatingPayload ∧ fd.idx.val = s.fd.idx.val + 1 ∧
      ∀ j : Fin 4, fd.buf[j.val] = if j = s.fd.idx then b else s.fd.buf[j.val]

/-- R143, R93, R94, R144. The fourth byte: stored, the frame validated and delivered or dropped, and either way the decoder
searches again from index 0. -/
def Obligations.FeedCompletesAFrame : Prop :=
  ∀ (b : Byte) (s : State), s.fd.mode = .accumulatingPayload → s.fd.idx = 3 →
    ∃ fd : FdState, ∃ f : Option Frame,
      exec (.feed b) s = .next { s with fd := fd, out := .frame f } ∧
      fd.mode = .searchingHeader ∧ fd.idx = 0 ∧
      (∀ j : Fin 4, fd.buf[j.val] = if j = 3 then b else s.fd.buf[j.val]) ∧
      (b.toNat ≠ (s.fd.buf[0].toNat + s.fd.buf[1].toNat + s.fd.buf[2].toNat) % 128 → f = none) ∧
      (b.toNat = (s.fd.buf[0].toNat + s.fd.buf[1].toNat + s.fd.buf[2].toNat) % 128 →
        ∃ g : Frame, f = some g ∧ g.header = s.fd.buf[0] ∧
          g.dataHigh.toNat = s.fd.buf[1].toNat % 128 ∧ g.dataLow.toNat = s.fd.buf[2].toNat % 128 ∧
          g.checksum.toNat = b.toNat ∧
          g.concentration.toNat = g.dataHigh.toNat * 128 + g.dataLow.toNat)

/-- R93. A frame is valid if and only if its fourth byte, whole, is the low seven bits of the sum of the three before it; in
a group that starts with the header, validity depends on the low septets of bytes 1 and 2 only, and a fourth byte with
bit 7 set is never valid. -/
def Obligations.ValidityIgnoresBitSevenOfTheData : Prop :=
  ∀ (b : Byte) (s : State), s.fd.mode = .accumulatingPayload → s.fd.idx = 3 → s.fd.buf[0] = 0xA5 →
    ∃ t, exec (.feed b) s = .next t ∧
      ((∃ g, t.out = .frame (some g)) ↔
        b.toNat = (s.fd.buf[0].toNat + s.fd.buf[1].toNat + s.fd.buf[2].toNat) % 128) ∧
      ((∃ g, t.out = .frame (some g)) ↔
        b.toNat = (0x25 + s.fd.buf[1].toNat % 128 + s.fd.buf[2].toNat % 128) % 128) ∧
      (128 ≤ b.toNat → t.out = .frame none)

/-- R145, R146. After the FEED that completes a frame, valid or not, the very next byte is compared with the header, and
the four bytes are not examined again. -/
def Obligations.NextByteAfterAFrameIsTestedAsHeader : Prop :=
  ∀ (b b' : Byte) (s : State), s.fd.mode = .accumulatingPayload → s.fd.idx = 3 →
    ∃ t u, exec (.feed b) s = .next t ∧ exec (.feed b') t = .next u ∧ u.out = .frame none ∧
      t.fd.mode = .searchingHeader ∧ t.fd.idx = 0 ∧
      (b' = 0xA5 → u.fd = ⟨.accumulatingPayload, 1, t.fd.buf.set 0 0xA5⟩) ∧ (b' ≠ 0xA5 → u.fd = t.fd)

/-- Derived from R140, R143: a group of four bytes from a searching decoder, and what its four FEEDs return. -/
def Obligations.GroupOfFourBytes : Prop :=
  ∀ (b1 b2 b3 : Byte) (s : State), s.fd.mode = .searchingHeader →
    ∃ f : Option Frame,
      runOps (feeds [0xA5, b1, b2, b3]) s =
        some ({ s with fd := ⟨.searchingHeader, 0, #v[0xA5, b1, b2, b3]⟩, out := .frame f },
          [.frame none, .frame none, .frame none, .frame f]) ∧
      (f.isSome = true ↔ b3.toNat = (0xA5 + b1.toNat + b2.toNat) % 128)

/-- R147. Bytes other than the header fed while searching have no effect, so a group of bytes after any number of them
decodes as if they were absent; the source's test with the checksum byte corrected delivers 172 with its sixth byte, and as
printed delivers nothing. -/
def Obligations.LeadingNoiseHasNoEffect : Prop :=
  (∀ (noise bytes : List Byte) (s : State), s.fd.mode = .searchingHeader →
    (∀ b ∈ noise, b ≠ 0xA5) → bytes ≠ [] →
    ∃ t outs, runOps (feeds bytes) s = some (t, outs) ∧
      runOps (feeds (noise ++ bytes)) s = some (t, noise.map (fun _ => .frame none) ++ outs)) ∧
  (∀ s : State, s.fd.mode = .searchingHeader →
    ∃ t u, ∃ g : Frame, g.concentration = 172 ∧
      runOps (feeds [0x00, 0x00, 0xA5, 0x01, 0x2C, 0x52]) s =
        some (t, [.frame none, .frame none, .frame none, .frame none, .frame none, .frame (some g)]) ∧
      runOps (feeds [0x00, 0x00, 0xA5, 0x01, 0x2C, 0x9E]) s =
        some (u, [.frame none, .frame none, .frame none, .frame none, .frame none, .frame none]))

/-- Derived from R148: its two examples. A false header before a frame loses the frame, and a header byte inside a group can
close as a valid frame. That every byte fed while accumulating is payload is FeedWhileAccumulating and GroupOfFourBytes. -/
def Obligations.TheTwoExamplesOfAFalseHeader : Prop :=
  ∀ s : State, s.fd.mode = .searchingHeader →
    ∃ t u, ∃ g : Frame, g.concentration = 4737 ∧
      runOps (feeds [0xA5, 0xA5, 0x01, 0x2C, 0x52]) s =
        some (t, [.frame none, .frame none, .frame none, .frame none, .frame none]) ∧
      t.fd.mode = .searchingHeader ∧
      runOps (feeds [0xA5, 0xA5, 0x01, 0x4B]) s =
        some (u, [.frame none, .frame none, .frame none, .frame (some g)])

/-- Derived from R153, last sentence: whatever a legal decoder holds, it searches again after at most three further
FEEDs. -/
def Obligations.DecoderSearchesAgainWithinThreeFeeds : Prop :=
  ∀ (b1 b2 b3 : Byte) (s : State), s.fd.Inv → s.fd.mode = .accumulatingPayload →
    ∃ t1 t2 t3, exec (.feed b1) s = .next t1 ∧ exec (.feed b2) t1 = .next t2 ∧
      exec (.feed b3) t2 = .next t3 ∧
      (t1.fd.mode = .searchingHeader ∨ t2.fd.mode = .searchingHeader ∨ t3.fd.mode = .searchingHeader)

/-- Derived from R149: from any legal state of the decoder, in a stream that is well formed from here on, every frame whose
header is at byte 3 or later is decoded and reported with its own fields. -/
def Obligations.CorruptionLastsAtMostThreeBytesMore : Prop :=
  ∀ (before : List Piece) (h l : Septet) (s : State), s.fd.Inv →
    (∀ x ∈ before, x.wellFormed = true) → 3 ≤ (before.flatMap Piece.bytes).length →
    ∃ t outs, outs.length = (before.flatMap Piece.bytes).length ∧
      runOps (feeds (before.flatMap Piece.bytes ++ (Piece.frame h l).bytes)) s =
        some (t, outs ++ [.frame none, .frame none, .frame none, .frame (some (trueFrame h l))])

/-- R150. NOP is the word 0. It changes no register and returns nothing, and NOPs between other operations change neither the registers nor
the outputs of the others. -/
def Obligations.NopChangesNothing : Prop :=
  (∀ c : Config, encode c .nop = 0) ∧ (∀ s : State, exec .nop s = .next { s with out := .none }) ∧
  (∀ (ops : List Instr) (s : State),
    ∃ t t' outs outs', runOps ops s = some (t, outs) ∧
      runOps (ops.filter (fun i => i ≠ .nop)) s = some (t', outs') ∧ t.sameRegisters t' ∧
      outs.filter (fun o => o ≠ .none) = outs'.filter (fun o => o ≠ .none))

/-! ### MotionLatch (43_motion_latch.md, 20_memory.md section 5) -/

/-- R170. TRIGGER sets the flag and stores the timestamp as given, in the `TSW` bits of the register, which hold every
operand that fits; its word; it is legal on both channels. -/
def Obligations.TriggerRecordsTheEvent : Prop :=
  ∀ (now : Timestamp) (s : State),
    ∃ last : Timestamp, exec (.trigger now) s = .next { s with ml := ⟨true, last⟩, out := .none } ∧
      last.toNat = now.toNat % 2 ^ s.cfg.tsw ∧
      (Instr.fits s.cfg (.trigger now) = true →
        last = now ∧ (encode s.cfg (.trigger now)).toNat = 0x03 * 2 ^ 40 + now.toNat) ∧
      Instr.legalOn .t (.trigger now) = true ∧ Instr.legalOn .p (.trigger now) = true

/-- Derived from R171, R175, R178: after any number of TRIGGERs the flag is set, the timestamp is that of the last one, and the
latch stays active until more than the timeout after it, modulo `2^TSW`. -/
def Obligations.LastTriggerDecides : Prop :=
  ∀ (nows : List Timestamp) (t0 now : Timestamp) (s : State),
    ∃ t outs u, runOps ((nows ++ [t0]).map .trigger) s = some (t, outs) ∧ t.ml.active = true ∧
      t.ml.last.toNat = t0.toNat % 2 ^ s.cfg.tsw ∧ exec (.query now) t = .next u ∧
      (u.out = .active true ↔ ((now.toNat : Int) - t0.toNat) % 2 ^ s.cfg.tsw ≤ s.cfg.motionTimeout)

/-- R173. CLEAR clears the flag and keeps the timestamp, whatever the timeout; a TRIGGER performed after it sets the latch
again; its word, and channel P only. -/
def Obligations.ClearForcesInactive : Prop :=
  ∀ s : State, exec .clear s = .next { s with ml := ⟨false, s.ml.last⟩, out := .none } ∧
    (∀ (now : Timestamp) (t : State), exec .clear s = .next t →
      ∃ u, exec (.trigger now) t = .next u ∧ u.ml.active = true ∧ u.ml.last.toNat = now.toNat % 2 ^ s.cfg.tsw) ∧
    encode s.cfg .clear = 0x040000000000 ∧ Instr.legalOn .p .clear = true ∧ Instr.legalOn .t .clear = false

/-- Derived from R174: after CLEAR, with no TRIGGER performed since, a QUERY returns 0 for every operand. -/
def Obligations.QueryAfterClearIsInactive : Prop :=
  ∀ (ops : List Instr) (now : Timestamp) (s : State), (∀ i ∈ ops, ∀ n, i ≠ .trigger n) →
    ∃ t outs, runOps (.clear :: ops ++ [.query now]) s = some (t, outs ++ [.active false])

/-- R175. QUERY, with the elapsed time modulo `2^TSW` on numbers: the flag falls only on a strict excess, the timestamp is
never written, and the value returned is the flag after that; its word, and channel P only. -/
def Obligations.QueryExpiresThenAnswers : Prop :=
  ∀ (now : Timestamp) (s : State),
    ∃ a : Bool, exec (.query now) s = .next { s with ml := ⟨a, s.ml.last⟩, out := .active a } ∧
      (a = true ↔ s.ml.active = true ∧
        ((now.toNat : Int) - s.ml.last.toNat) % 2 ^ s.cfg.tsw ≤ s.cfg.motionTimeout) ∧
      (Instr.fits s.cfg (.query now) = true →
        (encode s.cfg (.query now)).toNat = 0x05 * 2 ^ 40 + now.toNat) ∧
      Instr.legalOn .p (.query now) = true ∧ Instr.legalOn .t (.query now) = false

/-- Derived from R176, R177, R178: on true times of one millisecond clock, a trigger at `t0` answers a query at `t1` by the
true elapsed time modulo `2^TSW`: active at exactly the timeout, expired one millisecond later, and fresh again after the
wrap. -/
def Obligations.QueryOnTrueTimes : Prop :=
  ∀ (t0 t1 : Nat) (s : State), s.cfg.widthsFit = true → t0 ≤ t1 →
    ∃ t u, exec (.trigger (s.cfg.clock t0)) s = .next t ∧ exec (.query (s.cfg.clock t1)) t = .next u ∧
      (u.out = .active true ↔ (t1 - t0) % 2 ^ s.cfg.tsw ≤ s.cfg.motionTimeout)

/-- R179, R27, R28. Motion ends inside a QUERY by timeout or by CLEAR, and in no other way; only TRIGGER sets the flag and
writes the timestamp. -/
def Obligations.MotionEndsByTimeoutOrClearOnly : Prop :=
  ∀ (i : Instr) (s : State), ∃ t, exec i s = .next t ∧
    (s.ml.active = true → t.ml.active = false →
      i = .clear ∨ ∃ now, i = .query now ∧
        s.cfg.motionTimeout < ((now.toNat : Int) - s.ml.last.toNat) % 2 ^ s.cfg.tsw) ∧
    (s.ml.active = false → t.ml.active = true → ∃ now, i = .trigger now) ∧
    (t.ml.last ≠ s.ml.last → ∃ now, i = .trigger now ∧ t.ml.last.toNat = now.toNat % 2 ^ s.cfg.tsw)

/-- Derived from R66 and R208 (b): QUERY, CLEAR and TRIGGER are idempotent for a fixed operand, and TICK is once it has
reached Idle. -/
def Obligations.RepeatedOperationsChangeNothing : Prop :=
  (∀ (now : Timestamp) (s t : State), exec (.query now) s = .next t → exec (.query now) t = .next t) ∧
  (∀ s t : State, exec .clear s = .next t → exec .clear t = .next t) ∧
  (∀ (now : Timestamp) (s t : State), exec (.trigger now) s = .next t → exec (.trigger now) t = .next t) ∧
  (∀ (lux : Binary32) (m : Bool) (s t : State), exec (.tick lux m) s = .next t → t.bc.phase = .idle →
    exec (.tick lux m) t = .next t)

/-- Derived from R73, last sentence: no interleaving loses a trigger before a CLEAR or a late QUERY. -/
def Obligations.TriggerHoldsUntilClearOrLateQuery : Prop :=
  ∀ (now : Timestamp) (ops : List Instr) (s : State),
    (∀ i ∈ ops, i ≠ .clear ∧ (∀ n, i ≠ .trigger n) ∧
      ∀ n, i = .query n → ((n.toNat : Int) - now.toNat) % 2 ^ s.cfg.tsw ≤ s.cfg.motionTimeout) →
    ∃ t outs, runOps (.trigger now :: ops) s = some (t, outs) ∧ t.ml.active = true ∧
      t.ml.last.toNat = now.toNat % 2 ^ s.cfg.tsw

/-- Derived from R29, R171, R175, R178, R268 and log entry 10: the latch of `TSW` bits answers as the latch on unbounded time,
under the duty that timestamps do not go backwards (R268) and, DEDUCED in log entry 10 and not R269's own words, that a
QUERY performed while a trigger is in force comes less than `2^TSW` milliseconds after it. -/
def Obligations.LatchRefinesUnboundedTime : Prop :=
  ∀ (l : List TimedOp) (s : State), s.cfg.widthsFit = true → s.ml.active = false →
    Duty.timeForward s.cfg 0 l → Duty.queriedBeforeWrap s.cfg none l →
    ∃ t outs, runOps (opsOf l) s = some (t, outs) ∧
      outs.filterMap Output.answer =
        Latch.answers s.cfg.motionTimeout none l

/-! ### BrightnessController (44_brightness_controller.md) -/

/-- Derived from R192, R193: the base a TICK stores is the chain of thresholds in the parameters, and, at the thresholds and
base values this hardware takes, follows the light reading as a number (in units of 2^-149); a NaN falls into the lowest
bracket. That a pattern is read as that number, infinities and NaN included, is PRESUMED (log entry 9), as R192 marks it. -/
def Obligations.BaseFollowsTheLuxTable : Prop :=
  ∀ (lux : Binary32) (m : Bool) (s : State),
    ∃ bc : BcState, exec (.tick lux m) s = .next { s with bc := bc, out := .brightness bc.current } ∧
      (bc.base =
        if (luxValue lux).ge (luxValue s.cfg.luxT3) then s.cfg.baseBright
        else if (luxValue lux).ge (luxValue s.cfg.luxT2) then s.cfg.baseMid
        else if (luxValue lux).ge (luxValue s.cfg.luxT1) then s.cfg.baseDim
        else s.cfg.baseDark) ∧
      (s.cfg = Config.default → bc.base =
        match luxValue lux with
        | .nan => 110
        | .negInf => 110
        | .posInf => 0
        | .finite v =>
          if 500 * 2 ^ 149 ≤ v then 0
          else if 300 * 2 ^ 149 ≤ v then 50
          else if 100 * 2 ^ 149 ≤ v then 80
          else 110)

/-- Derived from R192, R193: with positive thresholds the ordered comparison is a comparison of bit patterns, for a pattern with
sign 0 that is no NaN; every other pattern is in the lowest bracket. That a pattern is read as the number this order is of,
subnormal numbers, infinities and NaN included, is PRESUMED (log entry 9): R192 marks the format general knowledge, and
gives no order of subnormal numbers. -/
def Obligations.BaseFollowsFromBitPatterns : Prop :=
  ∀ (lux : Binary32) (m : Bool) (s : State), s.cfg.luxAscending = true → 0 < s.cfg.luxT1.toNat →
    ∃ bc : BcState, exec (.tick lux m) s = .next { s with bc := bc, out := .brightness bc.current } ∧
      bc.base =
        if lux.toNat ≤ 0x7F800000 then
          if s.cfg.luxT3.toNat ≤ lux.toNat then s.cfg.baseBright
          else if s.cfg.luxT2.toNat ≤ lux.toNat then s.cfg.baseMid
          else if s.cfg.luxT1.toNat ≤ lux.toNat then s.cfg.baseDim
          else s.cfg.baseDark
        else s.cfg.baseDark

/-- R194. The target a TICK stores. -/
def Obligations.MotionBoostsOnlyAboveBaseZero : Prop :=
  ∀ (lux : Binary32) (m : Bool) (s : State),
    ∃ bc : BcState, exec (.tick lux m) s = .next { s with bc := bc, out := .brightness bc.current } ∧
      (bc.base ≠ 0 → m = true → bc.target = 255) ∧ (bc.base = 0 ∨ m = false → bc.target = bc.base) ∧
      (s.cfg = Config.default → bc.target ∈ ([0, 50, 80, 110, 255] : List Byte))

/-- Derived from R195 to R202, R36: a TICK whose target is above the current brightness. The curve restarts unless the
phase is Rising; the counter is incremented; at a count within the total the rising curve is evaluated, exactly and without
wrapping, and above it the brightness snaps. -/
def Obligations.TickTowardABrighterTarget : Prop :=
  ∀ (lux : Binary32) (m : Bool) (s : State), s.Inv →
    ∃ bc : BcState, exec (.tick lux m) s = .next { s with bc := bc, out := .brightness bc.current } ∧
      (s.bc.current < bc.target →
        bc.stepStart = (if s.bc.phase = .rising then s.bc.stepStart else s.bc.current) ∧
        bc.stepCount = (if s.bc.phase = .rising then s.bc.stepCount else 0) + 1 ∧
        (bc.stepCount ≤ s.cfg.riseSteps →
          bc.phase = .rising ∧
          (bc.current.toNat : Int) = bc.stepStart.toNat +
            match s.cfg.curveRound with
            | .trunc =>
              (((bc.target.toNat : Int) - bc.stepStart.toNat) * bc.stepCount * bc.stepCount) /
                (s.cfg.riseSteps * s.cfg.riseSteps)
            | .nearest =>
              (2 * (((bc.target.toNat : Int) - bc.stepStart.toNat) * bc.stepCount * bc.stepCount) +
                s.cfg.riseSteps * s.cfg.riseSteps) / (2 * (s.cfg.riseSteps * s.cfg.riseSteps))) ∧
        (s.cfg.riseSteps < bc.stepCount → bc.phase = .idle ∧ bc.current = bc.target))

/-- Derived from R195 to R202, R36: a TICK whose target is below the current brightness. -/
def Obligations.TickTowardADarkerTarget : Prop :=
  ∀ (lux : Binary32) (m : Bool) (s : State), s.Inv →
    ∃ bc : BcState, exec (.tick lux m) s = .next { s with bc := bc, out := .brightness bc.current } ∧
      (bc.target < s.bc.current →
        bc.stepStart = (if s.bc.phase = .falling then s.bc.stepStart else s.bc.current) ∧
        bc.stepCount = (if s.bc.phase = .falling then s.bc.stepCount else 0) + 1 ∧
        (bc.stepCount ≤ s.cfg.fallSteps →
          bc.phase = .falling ∧
          (bc.current.toNat : Int) = bc.stepStart.toNat -
            match s.cfg.curveRound with
            | .trunc =>
              (((bc.stepStart.toNat : Int) - bc.target.toNat) * bc.stepCount *
                (2 * s.cfg.fallSteps - bc.stepCount)) / (s.cfg.fallSteps * s.cfg.fallSteps)
            | .nearest =>
              (2 * (((bc.stepStart.toNat : Int) - bc.target.toNat) * bc.stepCount *
                (2 * s.cfg.fallSteps - bc.stepCount)) + s.cfg.fallSteps * s.cfg.fallSteps) /
                  (2 * (s.cfg.fallSteps * s.cfg.fallSteps))) ∧
        (s.cfg.fallSteps < bc.stepCount → bc.phase = .idle ∧ bc.current = bc.target))

/-- Derived from R195, last clause, and R198: a TICK whose target is the current brightness forces Idle and changes neither
the brightness nor the curve's registers. -/
def Obligations.TickAtTheTargetForcesIdle : Prop :=
  ∀ (lux : Binary32) (m : Bool) (s : State),
    ∃ bc : BcState, exec (.tick lux m) s = .next { s with bc := bc, out := .brightness bc.current } ∧
      (bc.target = s.bc.current →
        bc.phase = .idle ∧ bc.current = s.bc.current ∧ bc.stepCount = s.bc.stepCount ∧
          bc.stepStart = s.bc.stepStart)

/-- Derived from R196 and R203: after step 3 the phase is a function of the comparison alone, so the boundary condition
step 4 tests always holds. -/
def Obligations.PhaseAfterTransitionIsTheComparison : Prop :=
  ∀ b : BcState,
    (b.transition.phase = .rising ↔ b.transition.current < b.transition.target) ∧
    (b.transition.phase = .falling ↔ b.transition.target < b.transition.current) ∧
    (b.transition.phase = .idle ↔ b.transition.current = b.transition.target)

/-- Derived from R199, R201, R204, R208 (a): from rest, under constant operands that ask for a brighter target, the
brightness after `n` ticks is the rising curve at step `n`. -/
def Obligations.RiseFromRestFollowsTheCurve : Prop :=
  ∀ (lux : Binary32) (m : Bool) (n : Nat) (s : State), s.Inv → s.bc.phase = .idle →
    s.bc.current < targetOf (baseOf s.cfg lux) m → 1 ≤ n → n ≤ s.cfg.riseSteps →
    ∃ t outs, runOps (ticks n lux m) s = some (t, outs) ∧
      t.bc.target = targetOf (baseOf s.cfg lux) m ∧
      (t.bc.current.toNat : Int) = s.bc.current.toNat +
        quotient s.cfg.curveRound
          (((t.bc.target.toNat : Int) - s.bc.current.toNat) * n * n) (s.cfg.riseSteps * s.cfg.riseSteps)

/-- Derived from R200, R201, R204: the same for a darker target and the falling curve. -/
def Obligations.FallFromRestFollowsTheCurve : Prop :=
  ∀ (lux : Binary32) (m : Bool) (n : Nat) (s : State), s.Inv → s.bc.phase = .idle →
    targetOf (baseOf s.cfg lux) m < s.bc.current → 1 ≤ n → n ≤ s.cfg.fallSteps →
    ∃ t outs, runOps (ticks n lux m) s = some (t, outs) ∧
      t.bc.target = targetOf (baseOf s.cfg lux) m ∧
      (t.bc.current.toNat : Int) = s.bc.current.toNat -
        quotient s.cfg.curveRound
          (((s.bc.current.toNat : Int) - t.bc.target.toNat) * n * (2 * s.cfg.fallSteps - n))
          (s.cfg.fallSteps * s.cfg.fallSteps)

/-- Derived from R199, R200, R202, R204: from any legal state, under constant operands, the brightness is at its target and
the phase Idle after one tick more than the longer curve, and stays so. -/
def Obligations.ConstantOperandsSettle : Prop :=
  ∀ (lux : Binary32) (m : Bool) (k : Nat) (s : State), s.Inv →
    ∃ t outs,
      runOps (ticks (max s.cfg.riseSteps s.cfg.fallSteps + 1 + k) lux m) s = some (t, outs) ∧
      t.bc.phase = .idle ∧ t.bc.current = targetOf (baseOf s.cfg lux) m ∧
      t.bc.target = targetOf (baseOf s.cfg lux) m

/-- Derived from R264: the first operations after reset. -/
def Obligations.FirstOperationsAfterReset : Prop :=
  (∀ now, ∃ t, exec (.query now) State.reset = .next t ∧ t.out = .active false) ∧
  (∀ b, ∃ t, exec (.feed b) State.reset = .next t ∧ (b = 0xA5 ↔ t.fd.mode = .accumulatingPayload)) ∧
  (∀ lux m, ∃ t, exec (.tick lux m) State.reset = .next t ∧ t.brightness = 0 ∧
    (t.bc.target = 0 ↔ luxGe lux 0x43FA0000 = true) ∧
    (t.bc.target = 0 → t.bc.phase = .idle) ∧
    (t.bc.target ≠ 0 → t.bc.phase = .rising ∧ t.bc.stepStart = 0 ∧ t.bc.stepCount = 1))

/-- Derived from R40, R42, 93_implementation_defined.md U4 and U10: the buffer after reset, an inactive latch's timestamp and
an idle controller's counter and step start cannot be observed: two states that differ in such values alone return the same
outputs to every sequence of operations. This makes log entry 2's choice of zeros immaterial to the outputs. -/
def Obligations.StaleRegistersCannotBeObserved : Prop :=
  ∀ (ops : List Instr) (s s' : State), s.agree s' →
    ∃ t t' outs, runOps ops s = some (t, outs) ∧ runOps ops s' = some (t', outs) ∧ t.agree t'

/-- Derived from R105, R181: the TICK of a POLL uses the bit its QUERY returned, whatever TRIGGERs fall between the two; they
reach the latch and not the controller. -/
def Obligations.TriggerInsideAPollDoesNotReachItsTick : Prop :=
  ∀ (now : Timestamp) (lux : Binary32) (between : List Timestamp) (s : State),
    ∃ q t u outs, exec (.query now) s = .next q ∧ exec (.tick lux q.out.motion) s = .next t ∧
      poll now lux between s = some (u, q.out :: outs) ∧ u.bc = t.bc ∧ u.out = t.out ∧ u.fd = s.fd ∧
      (between = [] → u.ml = q.ml) ∧
      (∀ x rest, between = rest ++ [x] → u.ml.active = true ∧ u.ml.last.toNat = x.toNat % 2 ^ s.cfg.tsw)

/-! ### The duty to poll (70_reset_and_hazards.md R269) -/

/-- Derived from R177, R268, R269: with every poll of an active latch less than `2^TSW - MOTION_TIMEOUT` milliseconds after the
TRIGGER or the poll before it, R269's own duty is met and no wrap hides an expiry: the latch of `TSW` bits answers as the
latch on unbounded time. That the duty is due again after each poll is log entry 10's DEDUCED reading of "poll often enough";
R269's sentence speaks of one poll after the last TRIGGER. -/
def Obligations.PollingOftenEnoughHidesNoExpiry : Prop :=
  ∀ (horizon : Nat) (l : List TimedOp) (s : State), s.cfg.wf = true → s.ml.active = false →
    Duty.timeForward s.cfg 0 l → Duty.polledOften s.cfg horizon none none l →
    Duty.queriedInTime s.cfg horizon none l ∧
      ∃ t outs, runOps (opsOf l) s = some (t, outs) ∧
        outs.filterMap Output.answer = Latch.answers s.cfg.motionTimeout none l
end

