-- ==== Sys2Proof/Laws/State.lean ====
section
/-! SUPPORT. One lemma per field per update of State, and of each unit's registers. -/

namespace Sys2Proof.Machine

@[simp] theorem setFd_cfg (s : State) (x : FdState) : (s.setFd x).cfg = s.cfg := rfl
@[simp] theorem setFd_fd (s : State) (x : FdState) : (s.setFd x).fd = x := rfl
@[simp] theorem setFd_ml (s : State) (x : FdState) : (s.setFd x).ml = s.ml := rfl
@[simp] theorem setFd_bc (s : State) (x : FdState) : (s.setFd x).bc = s.bc := rfl
@[simp] theorem setFd_out (s : State) (x : FdState) : (s.setFd x).out = s.out := rfl
@[simp] theorem setFd_env (s : State) (x : FdState) : (s.setFd x).env = s.env := rfl

@[simp] theorem setMl_cfg (s : State) (x : MlState) : (s.setMl x).cfg = s.cfg := rfl
@[simp] theorem setMl_fd (s : State) (x : MlState) : (s.setMl x).fd = s.fd := rfl
@[simp] theorem setMl_ml (s : State) (x : MlState) : (s.setMl x).ml = x := rfl
@[simp] theorem setMl_bc (s : State) (x : MlState) : (s.setMl x).bc = s.bc := rfl
@[simp] theorem setMl_out (s : State) (x : MlState) : (s.setMl x).out = s.out := rfl
@[simp] theorem setMl_env (s : State) (x : MlState) : (s.setMl x).env = s.env := rfl

@[simp] theorem setBc_cfg (s : State) (x : BcState) : (s.setBc x).cfg = s.cfg := rfl
@[simp] theorem setBc_fd (s : State) (x : BcState) : (s.setBc x).fd = s.fd := rfl
@[simp] theorem setBc_ml (s : State) (x : BcState) : (s.setBc x).ml = s.ml := rfl
@[simp] theorem setBc_bc (s : State) (x : BcState) : (s.setBc x).bc = x := rfl
@[simp] theorem setBc_out (s : State) (x : BcState) : (s.setBc x).out = s.out := rfl
@[simp] theorem setBc_env (s : State) (x : BcState) : (s.setBc x).env = s.env := rfl

@[simp] theorem deliver_cfg (s : State) (o : Output) : (s.deliver o).cfg = s.cfg := rfl
@[simp] theorem deliver_fd (s : State) (o : Output) : (s.deliver o).fd = s.fd := rfl
@[simp] theorem deliver_ml (s : State) (o : Output) : (s.deliver o).ml = s.ml := rfl
@[simp] theorem deliver_bc (s : State) (o : Output) : (s.deliver o).bc = s.bc := rfl
@[simp] theorem deliver_out (s : State) (o : Output) : (s.deliver o).out = o := rfl
@[simp] theorem deliver_env (s : State) (o : Output) : (s.deliver o).env = s.env := rfl

@[simp] theorem resetEvent_cfg (s : State) : s.resetEvent.cfg = s.cfg := rfl
@[simp] theorem resetEvent_fd (s : State) : s.resetEvent.fd = FdState.reset := rfl
@[simp] theorem resetEvent_ml (s : State) : s.resetEvent.ml = MlState.reset := rfl
@[simp] theorem resetEvent_bc (s : State) : s.resetEvent.bc = BcState.reset := rfl
@[simp] theorem resetEvent_out (s : State) : s.resetEvent.out = .none := rfl
@[simp] theorem resetEvent_env (s : State) : s.resetEvent.env = s.env := rfl

@[simp] theorem store_mode (fd : FdState) (i : Fin 4) (b : Byte) : (fd.store i b).mode = fd.mode := rfl
@[simp] theorem store_idx (fd : FdState) (i : Fin 4) (b : Byte) : (fd.store i b).idx = fd.idx := rfl
@[simp] theorem store_buf (fd : FdState) (i : Fin 4) (b : Byte) : (fd.store i b).buf = fd.buf.set i b := rfl

@[simp] theorem clear_active (ml : MlState) : ml.clear.active = false := rfl
@[simp] theorem clear_last (ml : MlState) : ml.clear.last = ml.last := rfl
@[simp] theorem set_active (c : Config) (now : Timestamp) : (MlState.set c now).active = true := rfl
@[simp] theorem set_last (c : Config) (now : Timestamp) : (MlState.set c now).last = lowBits c.tsw now := rfl

@[simp] theorem classify_current (c : Config) (x : Binary32) (b : BcState) : (b.classify c x).current = b.current := rfl
@[simp] theorem classify_target (c : Config) (x : Binary32) (b : BcState) : (b.classify c x).target = b.target := rfl
@[simp] theorem classify_base (c : Config) (x : Binary32) (b : BcState) : (b.classify c x).base = baseOf c x := rfl
@[simp] theorem classify_phase (c : Config) (x : Binary32) (b : BcState) : (b.classify c x).phase = b.phase := rfl
@[simp] theorem classify_stepCount (c : Config) (x : Binary32) (b : BcState) :
    (b.classify c x).stepCount = b.stepCount := rfl
@[simp] theorem classify_stepStart (c : Config) (x : Binary32) (b : BcState) :
    (b.classify c x).stepStart = b.stepStart := rfl

@[simp] theorem selectTarget_current (m : Bool) (b : BcState) : (b.selectTarget m).current = b.current := rfl
@[simp] theorem selectTarget_target (m : Bool) (b : BcState) : (b.selectTarget m).target = targetOf b.base m := rfl
@[simp] theorem selectTarget_base (m : Bool) (b : BcState) : (b.selectTarget m).base = b.base := rfl
@[simp] theorem selectTarget_phase (m : Bool) (b : BcState) : (b.selectTarget m).phase = b.phase := rfl
@[simp] theorem selectTarget_stepCount (m : Bool) (b : BcState) : (b.selectTarget m).stepCount = b.stepCount := rfl
@[simp] theorem selectTarget_stepStart (m : Bool) (b : BcState) : (b.selectTarget m).stepStart = b.stepStart := rfl

@[simp] theorem startCurve_current (p : Phase) (b : BcState) : (b.startCurve p).current = b.current := rfl
@[simp] theorem startCurve_target (p : Phase) (b : BcState) : (b.startCurve p).target = b.target := rfl
@[simp] theorem startCurve_base (p : Phase) (b : BcState) : (b.startCurve p).base = b.base := rfl
@[simp] theorem startCurve_phase (p : Phase) (b : BcState) : (b.startCurve p).phase = p := rfl
@[simp] theorem startCurve_stepCount (p : Phase) (b : BcState) : (b.startCurve p).stepCount = 0 := rfl
@[simp] theorem startCurve_stepStart (p : Phase) (b : BcState) : (b.startCurve p).stepStart = b.current := rfl

@[simp] theorem snap_current (b : BcState) : b.snap.current = b.target := rfl
@[simp] theorem snap_target (b : BcState) : b.snap.target = b.target := rfl
@[simp] theorem snap_base (b : BcState) : b.snap.base = b.base := rfl
@[simp] theorem snap_phase (b : BcState) : b.snap.phase = .idle := rfl
@[simp] theorem snap_stepCount (b : BcState) : b.snap.stepCount = b.stepCount := rfl
@[simp] theorem snap_stepStart (b : BcState) : b.snap.stepStart = b.stepStart := rfl

end Sys2Proof.Machine
end

