-- ==== Sys2Proof/Laws/Ops.lean ====
section
/-! SUPPORT. What the shared operations can do: the quotient's bounds, the fields of a transition, one inversion lemma for
`exec` and one for `step`, and the run of a list of operations. -/

namespace Sys2Proof.Machine

/-! ### The quotient of R201 -/

/-- A fraction of a whole number is that number, in both modes. -/
theorem quotient_mul_self (r : Rounding) (d k : Int) (hk : 0 < k) : quotient r (d * k) k = d := by
  cases r with
  | trunc => exact Int.mul_ediv_cancel d (by omega)
  | nearest =>
    show (2 * (d * k) + k) / (2 * k) = d
    have h : 2 * (d * k) + k = k + d * (2 * k) := by ring
    rw [h, Int.add_mul_ediv_right _ _ (by omega), Int.ediv_eq_zero_of_lt (by omega) (by omega)]
    omega

/-- The quotient grows with its numerator. -/
theorem quotient_mono (r : Rounding) (k : Int) {a b : Int} (hk : 0 < k) (h : a ≤ b) :
    quotient r a k ≤ quotient r b k := by
  cases r with
  | trunc => exact Int.ediv_le_ediv hk h
  | nearest => exact Int.ediv_le_ediv (by omega) (by omega)

/-- `0 <= Q(n, k)` for a fraction that is not negative. -/
theorem quotient_nonneg (r : Rounding) {n k : Int} (hn : 0 ≤ n) (hk : 0 < k) : 0 ≤ quotient r n k := by
  cases r with
  | trunc => exact Int.ediv_nonneg hn (by omega)
  | nearest => exact Int.ediv_nonneg (by omega) (by omega)

/-- `Q(d * n, k) <= d` for `n <= k`. -/
theorem quotient_le (r : Rounding) {d n k : Int} (hd : 0 ≤ d) (hn : n ≤ k) (hk : 0 < k) :
    quotient r (d * n) k ≤ d :=
  le_of_le_of_eq (quotient_mono r k hk (Int.mul_le_mul_of_nonneg_left hn hd)) (quotient_mul_self r d k hk)

/-! ### What an operation can do -/

/-- Every operation completes. -/
theorem exec_next (i : Instr) (s : State) : ∃ t, exec i s = .next t := by
  cases i <;> exact ⟨_, rfl⟩

/-- Everything an operation can do. -/
theorem exec_cases {i : Instr} {s t : State} (h : exec i s = .next t) :
    (i = .nop ∧ t = s.deliver .none) ∨
    (∃ mv, i = .percent mv ∧ t = s.deliver (.pct (BitVec.ofInt 7 (percentOf s.cfg mv)))) ∨
    (∃ b, i = .feed b ∧ t = (s.setFd (s.fd.feed b).1).deliver (.frame (s.fd.feed b).2)) ∨
    (∃ now, i = .trigger now ∧ t = (s.setMl (MlState.set s.cfg now)).deliver .none) ∨
    (i = .clear ∧ t = (s.setMl s.ml.clear).deliver .none) ∨
    (∃ now, i = .query now ∧ t = (s.setMl (s.ml.expire s.cfg now)).deliver
      (.active (s.ml.expire s.cfg now).active)) ∨
    (∃ lux m, i = .tick lux m ∧
      t = (s.setBc (s.bc.tick s.cfg lux m)).deliver (.brightness (s.bc.tick s.cfg lux m).current)) := by
  cases i <;> cases h
  case nop => exact .inl ⟨rfl, rfl⟩
  case percent mv => exact .inr (.inl ⟨mv, rfl, rfl⟩)
  case feed b => exact .inr (.inr (.inl ⟨b, rfl, rfl⟩))
  case trigger now => exact .inr (.inr (.inr (.inl ⟨now, rfl, rfl⟩)))
  case clear => exact .inr (.inr (.inr (.inr (.inl ⟨rfl, rfl⟩))))
  case query now => exact .inr (.inr (.inr (.inr (.inr (.inl ⟨now, rfl, rfl⟩)))))
  case tick lux m => exact .inr (.inr (.inr (.inr (.inr (.inr ⟨lux, m, rfl, rfl⟩)))))

@[simp] theorem exec_nop (s : State) : exec .nop s = .next (s.deliver .none) := rfl
@[simp] theorem exec_percent (mv : Int) (s : State) :
    exec (.percent mv) s = .next (s.deliver (.pct (BitVec.ofInt 7 (percentOf s.cfg mv)))) := rfl
@[simp] theorem exec_feed (b : Byte) (s : State) :
    exec (.feed b) s = .next ((s.setFd (s.fd.feed b).1).deliver (.frame (s.fd.feed b).2)) := rfl
@[simp] theorem exec_trigger (now : Timestamp) (s : State) :
    exec (.trigger now) s = .next ((s.setMl (MlState.set s.cfg now)).deliver .none) := rfl
@[simp] theorem exec_clear (s : State) : exec .clear s = .next ((s.setMl s.ml.clear).deliver .none) := rfl
@[simp] theorem exec_query (now : Timestamp) (s : State) :
    exec (.query now) s = .next ((s.setMl (s.ml.expire s.cfg now)).deliver
      (.active (s.ml.expire s.cfg now).active)) := rfl
@[simp] theorem exec_tick (lux : Binary32) (m : Bool) (s : State) :
    exec (.tick lux m) s = .next ((s.setBc (s.bc.tick s.cfg lux m)).deliver
      (.brightness (s.bc.tick s.cfg lux m).current)) := rfl

/-- No operation writes the configuration or what is presented. -/
theorem exec_cfg_env {i : Instr} {s t : State} (h : exec i s = .next t) : t.cfg = s.cfg ∧ t.env = s.env := by
  obtain ⟨_, rfl⟩ | ⟨_, _, rfl⟩ | ⟨_, _, rfl⟩ | ⟨_, _, rfl⟩ | ⟨_, rfl⟩ | ⟨_, _, rfl⟩ | ⟨_, _, _, rfl⟩ :=
    exec_cases h <;> exact ⟨rfl, rfl⟩

/-- What is presented plays no part in an operation. -/
theorem exec_env (i : Instr) (s : State) (env : List Presented) {t : State} (h : exec i s = .next t) :
    exec i { s with env := env } = .next { t with env := env } := by
  obtain ⟨rfl, rfl⟩ | ⟨_, rfl, rfl⟩ | ⟨_, rfl, rfl⟩ | ⟨_, rfl, rfl⟩ | ⟨rfl, rfl⟩ | ⟨_, rfl, rfl⟩ |
    ⟨_, _, rfl, rfl⟩ := exec_cases h <;> rfl

/-! ### What a step can do -/

/-- A step resets the registers, or performs one operation on the state with the rest of what is presented. -/
theorem step_cases {s t : State} (h : step s = .next t) :
    (∃ env, t = { s with env := env }.resetEvent) ∨ (∃ env i, exec i { s with env := env } = .next t) := by
  obtain ⟨cfg, fd, ml, bc, out, env⟩ := s
  have perform_cases : ∀ (ch : Channel) (w : TW) (u : State), perform ch w u = .next t → ∃ i, exec i u = .next t := by
    intro ch w u hp
    unfold perform at hp
    split at hp
    · exact ⟨_, hp⟩
    · cases hp
  match env with
  | [] => exact .inr ⟨[], .nop, h⟩
  | .nothing :: rest => exact .inr ⟨rest, .nop, h⟩
  | .onP w :: rest => exact .inr ⟨rest, perform_cases .p w _ h⟩
  | .onT w :: rest => exact .inr ⟨rest, perform_cases .t w _ h⟩
  | .both wP wT :: rest => exact .inr ⟨.onT wT :: rest, perform_cases .p wP _ h⟩
  | .reset :: rest => exact .inl ⟨rest, by simpa [step, State.present, respond] using h.symm⟩

/-! ### Runs -/

@[simp] theorem runOps_nil (s : State) : runOps [] s = some (s, []) := rfl

theorem runOps_cons {i : Instr} {s t : State} (h : exec i s = .next t) (rest : List Instr) :
    runOps (i :: rest) s = (runOps rest t).map fun r => (r.1, t.out :: r.2) := by
  simp [runOps, h]

/-- Runs compose. -/
theorem runOps_append {a b : List Instr} {s t u : State} {oa ob : List Output}
    (ha : runOps a s = some (t, oa)) (hb : runOps b t = some (u, ob)) :
    runOps (a ++ b) s = some (u, oa ++ ob) := by
  induction a generalizing s oa with
  | nil => cases ha; exact hb
  | cons i rest ih =>
    obtain ⟨v, hv⟩ := exec_next i s
    rw [List.cons_append, runOps_cons hv]
    rw [runOps_cons hv] at ha
    cases hr : runOps rest v with
    | none => simp [hr] at ha
    | some r =>
      simp only [hr, Option.map_some, Option.some.injEq, Prod.mk.injEq] at ha
      obtain ⟨rfl, rfl⟩ := ha
      rw [ih hr]
      rfl

/-- A run goes on with one more operation. -/
theorem runOps_snoc {a : List Instr} {i : Instr} {s t u : State} {outs : List Output}
    (ha : runOps a s = some (t, outs)) (hi : exec i t = .next u) :
    runOps (a ++ [i]) s = some (u, outs ++ [u.out]) :=
  runOps_append ha (by rw [runOps_cons hi]; rfl)

/-- Every sequence of operations is a run, with one output for each. -/
theorem runOps_total (ops : List Instr) (s : State) :
    ∃ t outs, runOps ops s = some (t, outs) ∧ outs.length = ops.length := by
  induction ops generalizing s with
  | nil => exact ⟨s, [], rfl, rfl⟩
  | cons i rest ih =>
    obtain ⟨v, hv⟩ := exec_next i s
    obtain ⟨t, outs, h, hl⟩ := ih v
    exact ⟨t, v.out :: outs, by rw [runOps_cons hv, h]; rfl, by simp [hl]⟩

/-- A property of states that every operation of a list keeps holds after the list. -/
theorem runOps_invariant {P : State → Prop} {ops : List Instr}
    (hstep : ∀ i ∈ ops, ∀ s t, P s → exec i s = .next t → P t) {s t : State} {outs : List Output}
    (hs : P s) (h : runOps ops s = some (t, outs)) : P t := by
  induction ops generalizing s outs with
  | nil => cases h; exact hs
  | cons i rest ih =>
    obtain ⟨v, hv⟩ := exec_next i s
    rw [runOps_cons hv] at h
    cases hr : runOps rest v with
    | none => simp [hr] at h
    | some r =>
      simp only [hr, Option.map_some, Option.some.injEq, Prod.mk.injEq] at h
      obtain ⟨rfl, -⟩ := h
      exact ih (fun j hj => hstep j (List.mem_cons_of_mem i hj)) (hstep i (List.mem_cons_self ..) s v hs hv) hr

end Sys2Proof.Machine
end

