-- ==== Sys2Proof/Laws/BrightnessController.lean ====
section
/-! SUPPORT. What a TICK does to the controller's registers, one lemma per side of the comparison of step 3, and the bounds
of the two curves (R205). -/

namespace Sys2Proof.Machine

/-- The step counts of a well-formed configuration. -/
theorem wf_steps {c : Config} (h : c.wf = true) :
    1 ≤ c.riseSteps ∧ 1 ≤ c.fallSteps ∧ c.riseSteps + 1 < 2 ^ c.stepw ∧ c.fallSteps + 1 < 2 ^ c.stepw := by
  simp only [Config.wf, Config.stepsPositive, Config.stepsFit, Bool.and_eq_true, decide_eq_true_eq] at h
  tauto

/-- A TICK with a brighter target, in every state: the count and the start it goes on with, then the curve or the snap. -/
theorem tick_brighter (c : Config) (lux : Binary32) (m : Bool) (b : BcState)
    (h : b.current < targetOf (baseOf c lux) m) :
    b.tick c lux m =
      let g := targetOf (baseOf c lux) m
      let start := if b.phase = .rising then b.stepStart else b.current
      let n := (if b.phase = .rising then b.stepCount else 0) + 1
      if n ≤ c.riseSteps then
        ⟨BitVec.ofInt 8 (risingValue c start g n), g, baseOf c lux, .rising, n % 2 ^ c.stepw, start⟩
      else ⟨g, g, baseOf c lux, .idle, n % 2 ^ c.stepw, start⟩ := by
  have hg : ¬ targetOf (baseOf c lux) m < b.current := by simp only [BitVec.lt_def] at *; omega
  by_cases hp : b.phase = .rising <;>
    simp [BcState.tick, BcState.transition, BcState.advance, BcState.evaluate, BcState.snap, h, hp,
      BcState.classify, BcState.selectTarget, BcState.startCurve]

/-- A TICK with a darker target, in every state. -/
theorem tick_darker (c : Config) (lux : Binary32) (m : Bool) (b : BcState)
    (h : targetOf (baseOf c lux) m < b.current) :
    b.tick c lux m =
      let g := targetOf (baseOf c lux) m
      let start := if b.phase = .falling then b.stepStart else b.current
      let n := (if b.phase = .falling then b.stepCount else 0) + 1
      if n ≤ c.fallSteps then
        ⟨BitVec.ofInt 8 (fallingValue c start g n), g, baseOf c lux, .falling, n % 2 ^ c.stepw, start⟩
      else ⟨g, g, baseOf c lux, .idle, n % 2 ^ c.stepw, start⟩ := by
  have hg : ¬ b.current < targetOf (baseOf c lux) m := by simp only [BitVec.lt_def] at *; omega
  by_cases hp : b.phase = .falling <;>
    simp [BcState.tick, BcState.transition, BcState.advance, BcState.evaluate, BcState.snap, h, hg, hp,
      BcState.classify, BcState.selectTarget, BcState.startCurve]

/-- A TICK whose target is the current brightness, in every state. -/
theorem tick_level (c : Config) (lux : Binary32) (m : Bool) (b : BcState)
    (h : b.current = targetOf (baseOf c lux) m) :
    b.tick c lux m =
      ⟨b.current, targetOf (baseOf c lux) m, baseOf c lux, .idle, b.stepCount, b.stepStart⟩ := by
  simp [BcState.tick, BcState.transition, BcState.advance, BcState.classify, BcState.selectTarget, h]

/-- A comparison of bytes has three cases. -/
theorem byte_cases (a b : Byte) : a < b ∨ b < a ∨ a = b := by
  simp only [BitVec.lt_def, BitVec.toNat_eq]
  omega

/-- Every TICK stores the base of the reading and the target of that base. -/
theorem tick_base_target (c : Config) (lux : Binary32) (m : Bool) (b : BcState) :
    (b.tick c lux m).base = baseOf c lux ∧ (b.tick c lux m).target = targetOf (baseOf c lux) m := by
  obtain h | h | h := byte_cases b.current (targetOf (baseOf c lux) m)
  · rw [tick_brighter c lux m b h]
    dsimp only
    split_ifs <;> exact ⟨rfl, rfl⟩
  · rw [tick_darker c lux m b h]
    dsimp only
    split_ifs <;> exact ⟨rfl, rfl⟩
  · rw [tick_level c lux m b h]
    exact ⟨rfl, rfl⟩

/-- The rising curve stays between its start and its target (R205). -/
theorem risingValue_bounds {c : Config} (hc : 1 ≤ c.riseSteps) {start g : Byte} {n : Nat} (hn : n ≤ c.riseSteps)
    (h : start ≤ g) : (start.toNat : Int) ≤ risingValue c start g n ∧ risingValue c start g n ≤ g.toNat := by
  have hd : (0 : Int) ≤ (g.toNat : Int) - start.toNat := by
    have : start.toNat ≤ g.toNat := h
    omega
  have hk : (0 : Int) < (c.riseSteps : Int) * c.riseSteps := mul_pos (by omega) (by omega)
  have hnn : (n : Int) * n ≤ (c.riseSteps : Int) * c.riseSteps := by
    exact mul_self_le_mul_self (by omega) (by omega)
  have h0 : 0 ≤ quotient c.curveRound (((g.toNat : Int) - start.toNat) * n * n) (c.riseSteps * c.riseSteps) :=
    quotient_nonneg _ (mul_nonneg (mul_nonneg hd (by omega)) (by omega)) hk
  have h1 := quotient_le c.curveRound hd hnn hk
  rw [← mul_assoc] at h1
  unfold risingValue
  omega

/-- At its last step the rising curve is at its target (R199). -/
theorem risingValue_last {c : Config} (hc : 1 ≤ c.riseSteps) (start g : Byte) :
    risingValue c start g c.riseSteps = g.toNat := by
  have hk : (0 : Int) < (c.riseSteps : Int) * c.riseSteps := mul_pos (by omega) (by omega)
  unfold risingValue
  rw [mul_assoc, quotient_mul_self _ _ _ hk]
  omega

/-- The falling curve stays between its target and its start (R205). -/
theorem fallingValue_bounds {c : Config} (hc : 1 ≤ c.fallSteps) {start g : Byte} {n : Nat} (hn : n ≤ c.fallSteps)
    (h : g ≤ start) : (g.toNat : Int) ≤ fallingValue c start g n ∧ fallingValue c start g n ≤ start.toNat := by
  have hd : (0 : Int) ≤ (start.toNat : Int) - g.toNat := by
    have : g.toNat ≤ start.toNat := h
    omega
  have hk : (0 : Int) < (c.fallSteps : Int) * c.fallSteps := mul_pos (by omega) (by omega)
  have hnn : (n : Int) * (2 * c.fallSteps - n) ≤ (c.fallSteps : Int) * c.fallSteps := by
    nlinarith [sq_nonneg ((c.fallSteps : Int) - n)]
  have h0 : 0 ≤ quotient c.curveRound (((start.toNat : Int) - g.toNat) * n * (2 * c.fallSteps - n))
      (c.fallSteps * c.fallSteps) :=
    quotient_nonneg _ (mul_nonneg (mul_nonneg hd (by omega)) (by omega)) hk
  have h1 := quotient_le c.curveRound hd hnn hk
  rw [← mul_assoc] at h1
  unfold fallingValue
  omega

/-- At its last step the falling curve is at its target (R200). -/
theorem fallingValue_last {c : Config} (hc : 1 ≤ c.fallSteps) (start g : Byte) :
    fallingValue c start g c.fallSteps = g.toNat := by
  have hk : (0 : Int) < (c.fallSteps : Int) * c.fallSteps := mul_pos (by omega) (by omega)
  unfold fallingValue
  rw [mul_assoc, show (c.fallSteps : Int) * (2 * c.fallSteps - c.fallSteps) = c.fallSteps * c.fallSteps by ring,
    quotient_mul_self _ _ _ hk]
  omega

/-- A number in the range of a byte survives the register. -/
theorem ofInt_byte {v : Int} (h0 : 0 ≤ v) (h1 : v < 256) : ((BitVec.ofInt 8 v).toNat : Int) = v := by
  rw [BitVec.toNat_ofInt, Int.emod_eq_of_lt h0 (by simpa using h1)]
  omega

end Sys2Proof.Machine
end

