-- ==== Sys2Proof/Laws/Core.lean ====
section
/-! SUPPORT. The two equations of the host's run. -/

namespace Sys2Proof.Machine

/-- No steps. -/
theorem core_run_zero (s : State) : Host.Core.run Sys2Proof.core 0 s = .next s := rfl

/-- A run whose first step goes on is the run from the state after that step, of every machine. -/
theorem run_succ_of_next (M : Host.Core) {s t : M.State} (k : Nat) (h : M.step s = .next t) :
    M.run (k + 1) s = M.run k t := by
  simp only [Host.Core.run, h]

/-- The same of this machine, in the names of the model. -/
theorem core_run_succ {s t : State} (k : Nat) (h : step s = .next t) :
    Host.Core.run Sys2Proof.core (k + 1) s = Host.Core.run Sys2Proof.core k t :=
  run_succ_of_next Sys2Proof.core k h

end Sys2Proof.Machine
end

