-- ==== Sys2Proof/Laws/Decode.lean ====
section
/-! SUPPORT. The fields of a made word, the fields of a word as numbers, and what the decoder's operand reads do. -/

namespace Sys2Proof

@[simp] theorem op_make (op : Byte) (m : Bool) (arg : BitVec 32) : (TW.make op m arg).op = op := by
  ext i hi
  simp [TW.op, TW.make]
  grind

@[simp] theorem z_make (op : Byte) (m : Bool) (arg : BitVec 32) : (TW.make op m arg).z = 0 := by
  ext i hi
  simp [TW.z, TW.make]
  grind

@[simp] theorem m_make (op : Byte) (m : Bool) (arg : BitVec 32) : (TW.make op m arg).m = m := by
  simp [TW.m, TW.make]

@[simp] theorem arg_make (op : Byte) (m : Bool) (arg : BitVec 32) : (TW.make op m arg).arg = arg := by
  ext i hi
  simp [TW.arg, TW.make]
  grind

/-- A word whose `z` is 0 is made of its other fields. -/
theorem make_fields {w : TW} (hz : w.z = 0) : TW.make w.op w.m w.arg = w := by
  have hz' : ∀ i, 33 ≤ i → i < 40 → w.getLsbD i = false := by
    intro i h1 h2
    have h : w.z.getLsbD (i - 33) = false := by simp [hz]
    simp only [TW.z, BitVec.getLsbD_extractLsb', show i - 33 < 7 by omega, show 33 + (i - 33) = i by omega,
      decide_true, Bool.true_and] at h
    exact h
  apply BitVec.eq_of_getLsbD_eq
  intro i hi
  simp only [TW.make, TW.op, TW.m, TW.arg]
  have := hz' i
  simp
  grind

theorem op_toNat (w : TW) : w.op.toNat = bitsOf w 47 40 := by
  simp [TW.op, bitsOf, Nat.shiftRight_eq_div_pow]

theorem z_toNat (w : TW) : w.z.toNat = bitsOf w 39 33 := by
  simp [TW.z, bitsOf, Nat.shiftRight_eq_div_pow]

theorem arg_toNat (w : TW) : w.arg.toNat = bitsOf w 31 0 := by
  simp [TW.arg, bitsOf]

theorem m_iff (w : TW) : w.m = true ↔ bitsOf w 32 32 = 1 := by
  simp [TW.m, bitsOf, BitVec.getLsbD, Nat.testBit, Nat.shiftRight_eq_div_pow]

/-- The bits of `arg` from `k` up. -/
theorem bitsOf_high (w : TW) {k : Nat} (hk : k < 32) : bitsOf w 31 k = w.arg.toNat / 2 ^ k := by
  have h := arg_toNat w
  simp only [bitsOf] at h ⊢
  rw [h]
  interval_cases k <;> simp <;> omega

/-- The low bits of `arg`. -/
theorem bitsOf_low (w : TW) {k : Nat} (hk : k < 32) : bitsOf w k 0 = w.arg.toNat % 2 ^ (k + 1) := by
  have h := arg_toNat w
  simp only [bitsOf] at h ⊢
  rw [h]
  interval_cases k <;> simp

/-- A word with the motion bit clear, as a number. -/
theorem make_toNat (op : Byte) (arg : BitVec 32) : (TW.make op false arg).toNat = op.toNat * 2 ^ 40 + arg.toNat := by
  have h1 := arg.isLt
  have h2 := op.isLt
  have e1 : (arg.setWidth 48).toNat = arg.toNat := by rw [BitVec.toNat_setWidth, Nat.mod_eq_of_lt (by omega)]
  have e2 : ((op.setWidth 48) <<< 40 : TW).toNat = (op.toNat * 2 ^ 8) <<< 32 := by
    simp [Nat.shiftLeft_eq]
    omega
  have e3 : (((BitVec.ofBool false).setWidth 48) <<< 32 : TW).toNat = 0 := by decide
  rw [TW.make, BitVec.toNat_or, BitVec.toNat_or, e1, e2, e3, Nat.or_zero, ← Nat.shiftLeft_add_eq_or_of_lt (by omega),
    Nat.shiftLeft_eq]
  omega

/-- The low bits as a number. -/
@[simp] theorem lowBits_toNat (n : Nat) (a : BitVec 32) : (lowBits n a).toNat = a.toNat % 2 ^ n := by
  have h : a.toNat % 2 ^ n < 2 ^ 32 := lt_of_le_of_lt (Nat.mod_le ..) a.isLt
  simp only [lowBits, BitVec.toNat_setWidth, Nat.mod_eq_of_lt h]

/-- They fit their width. -/
theorem lowBits_lt (n : Nat) (a : BitVec 32) : (lowBits n a).toNat < 2 ^ n := by
  rw [lowBits_toNat]
  exact Nat.mod_lt _ (by positivity)

/-- They are the whole exactly when the whole fits. -/
theorem lowBits_eq_iff (n : Nat) (a : BitVec 32) : lowBits n a = a ↔ a.toNat < 2 ^ n := by
  rw [← BitVec.toNat_inj, lowBits_toNat]
  exact ⟨fun h => h ▸ Nat.mod_lt _ (by positivity), Nat.mod_eq_of_lt⟩

/-- All an operand read can do: the whole, when it fits. -/
theorem lowOperand_eq (n : Nat) (a : BitVec 32) :
    lowOperand n a = if a.toNat < 2 ^ n then .ok a else .error .argBits := by
  simp only [lowOperand, lowBits_eq_iff]

theorem lowOperand_of_lt {n : Nat} {a : BitVec 32} (h : a.toNat < 2 ^ n) : lowOperand n a = .ok a := by
  rw [lowOperand_eq, if_pos h]

/-- A pattern of `n` bits, widened, is read as that pattern. -/
theorem toNat_widened {n : Nat} (hn : n ≤ 32) (x : BitVec n) : (x.setWidth 32).toNat = x.toNat := by
  have hp : 2 ^ n ≤ 2 ^ 32 := Nat.pow_le_pow_right (by omega) hn
  rw [BitVec.toNat_setWidth, Nat.mod_eq_of_lt (by have := x.isLt; omega)]

theorem setWidth_widened {n : Nat} (hn : n ≤ 32) (x : BitVec n) : (x.setWidth 32).setWidth n = x := by
  rw [← BitVec.toNat_inj, BitVec.toNat_setWidth, toNat_widened hn, Nat.mod_eq_of_lt x.isLt]

/-- An integer that fits survives its pattern (R101, PERCENT). -/
theorem signedOperand_ofInt {n : Nat} (hn : n ≤ 32) {v : Int} (h0 : -(2 : Int) ^ n ≤ 2 * v) (h1 : 2 * v < (2 : Int) ^ n) :
    signedOperand n ((BitVec.ofInt n v).setWidth 32) = v := by
  rw [signedOperand, setWidth_widened hn, BitVec.toInt_ofInt]
  refine Int.bmod_eq_of_le_mul_two ?_ ?_ <;> push_cast <;> omega

/-- What is read as a voltage fits its width. -/
theorem signedOperand_fits (n : Nat) (a : BitVec 32) :
    -(2 : Int) ^ n ≤ 2 * signedOperand n a ∧ 2 * signedOperand n a < (2 : Int) ^ n := by
  have h0 := BitVec.two_mul_toInt_lt (x := a.setWidth n)
  have h1 := BitVec.le_two_mul_toInt (x := a.setWidth n)
  exact ⟨h1, h0⟩

/-- All the decoder can answer: the operation, the word's `op`, and what its other fields are. -/
theorem decode_ok {c : Config} {w : TW} {i : Instr} (h : decode c w = .ok i) :
    w.z = 0 ∧
    ((i = .nop ∧ w.op = 0 ∧ w.m = false ∧ w.arg = 0) ∨
    (i = .percent (signedOperand c.mvw w.arg) ∧ w.op = 1 ∧ w.m = false ∧ w.arg.toNat < 2 ^ c.mvw) ∨
    (i = .feed (w.arg.setWidth 8) ∧ w.op = 2 ∧ w.m = false ∧ w.arg.toNat < 2 ^ 8) ∨
    (i = .trigger w.arg ∧ w.op = 3 ∧ w.m = false ∧ w.arg.toNat < 2 ^ c.tsw) ∨
    (i = .clear ∧ w.op = 4 ∧ w.m = false ∧ w.arg = 0) ∨
    (i = .query w.arg ∧ w.op = 5 ∧ w.m = false ∧ w.arg.toNat < 2 ^ c.tsw) ∨
    (i = .tick w.arg w.m ∧ w.op = 6)) := by
  unfold decode at h
  by_cases hz : w.z ≠ 0
  · rw [if_pos hz] at h
    cases h
  rw [if_neg hz] at h
  by_cases hm : w.m = true ∧ w.op ≠ 0x06
  · rw [if_pos hm] at h
    cases h
  rw [if_neg hm] at h
  refine ⟨not_not.mp hz, ?_⟩
  have hf : w.op ≠ 0x06 → w.m = false := fun hop => by
    cases hb : w.m
    · rfl
    · exact absurd ⟨hb, hop⟩ hm
  simp only [lowOperand_eq, noOperand] at h
  split_ifs at h with h0 ha h1 ha h2 ha h3 ha h4 ha h5 ha h6 <;> cases h
  · exact .inl ⟨rfl, h0, hf (by simp [h0]), ha⟩
  · exact .inr (.inl ⟨rfl, h1, hf (by simp [h1]), ha⟩)
  · exact .inr (.inr (.inl ⟨rfl, h2, hf (by simp [h2]), ha⟩))
  · exact .inr (.inr (.inr (.inl ⟨rfl, h3, hf (by simp [h3]), ha⟩)))
  · exact .inr (.inr (.inr (.inr (.inl ⟨rfl, h4, hf (by simp [h4]), ha⟩))))
  · exact .inr (.inr (.inr (.inr (.inr (.inl ⟨rfl, h5, hf (by simp [h5]), ha⟩)))))
  · exact .inr (.inr (.inr (.inr (.inr (.inr ⟨rfl, h6⟩)))))

end Sys2Proof
end

