-- ==== Sys2Proof/Laws/FrameDecoder.lean ====
section
/-! SUPPORT. What FEED does to the decoder's registers, one lemma per row of the transition table of R153. -/

namespace Sys2Proof.Machine

theorem feed_header {fd : FdState} (h : fd.mode = .searchingHeader) :
    fd.feed Const.header = (⟨.accumulatingPayload, 1, fd.buf.set 0 Const.header⟩, none) := by
  simp [FdState.feed, h, FdState.search, FdState.store]

theorem feed_other {fd : FdState} {b : Byte} (h : fd.mode = .searchingHeader) (hb : b ≠ Const.header) :
    fd.feed b = (fd, none) := by
  simp [FdState.feed, h, FdState.search, hb]

theorem feed_payload {fd : FdState} (b : Byte) (h : fd.mode = .accumulatingPayload) (hi : fd.idx ≠ 3) :
    fd.feed b = (⟨.accumulatingPayload, fd.idx + 1, fd.buf.set fd.idx b⟩, none) := by
  have : fd.idx.val + 1 ≠ Const.frameSize := by
    intro h'
    exact hi (Fin.ext (by simpa [Const.frameSize] using h'))
  simp [FdState.feed, h, FdState.accumulate, this, FdState.store]

theorem feed_last {fd : FdState} (b : Byte) (h : fd.mode = .accumulatingPayload) (hi : fd.idx = 3) :
    fd.feed b = (⟨.searchingHeader, 0, fd.buf.set 3 b⟩,
      if frameValid (fd.buf.set 3 b) then some (frameOf (fd.buf.set 3 b)) else none) := by
  simp [FdState.feed, h, FdState.accumulate, FdState.store, hi, Const.frameSize]

/-- FEED keeps the invariant of R26. -/
theorem feed_keeps_inv (b : Byte) {fd : FdState} (h : fd.Inv) : (fd.feed b).1.Inv := by
  obtain ⟨h1, h2⟩ := h
  cases hm : fd.mode with
  | searchingHeader =>
    by_cases hb : b = Const.header
    · subst hb
      rw [feed_header hm]
      simp [FdState.Inv]
    · rw [feed_other hm hb]
      exact ⟨h1, h2⟩
  | accumulatingPayload =>
    by_cases hi : fd.idx = 3
    · rw [feed_last b hm hi]
      simp [FdState.Inv]
    · rw [feed_payload b hm hi]
      have h0 : fd.idx ≠ 0 := fun h0 => by simp [h1.2 h0] at hm
      have succ_ne_zero : ∀ i : Fin 4, i ≠ 0 → i ≠ 3 → i + 1 ≠ 0 := by decide
      have h0' : fd.idx.val ≠ 0 := fun h => h0 (Fin.ext h)
      refine ⟨⟨fun h => by simp at h, fun h => absurd h (succ_ne_zero _ h0 hi)⟩, fun _ => ?_⟩
      simpa [Vector.getElem_set, h0'] using h2 hm

end Sys2Proof.Machine
end

