-- ==== Sys2Proof/Laws/MotionLatch.lean ====
section
/-! SUPPORT. What the latch's shared operations do. -/

namespace Sys2Proof.Machine

/-- The elapsed time as the mathematical integer of R178. -/
theorem elapsed_cast (c : Config) (now : Timestamp) (ml : MlState) :
    (ml.elapsed c now : Int) = ((now.toNat : Int) - ml.last.toNat) % 2 ^ c.tsw :=
  Int.toNat_of_nonneg (Int.emod_nonneg _ (by positivity))

/-- Since a TRIGGER, whatever of its operand the register holds. -/
theorem elapsed_set (c : Config) (t0 now : Timestamp) :
    ((MlState.set c t0).elapsed c now : Int) = ((now.toNat : Int) - t0.toNat) % 2 ^ c.tsw := by
  rw [elapsed_cast, set_last, lowBits_toNat]
  simp [Int.sub_emod]

/-- An expiry never writes the timestamp. -/
@[simp] theorem expire_last (c : Config) (now : Timestamp) (ml : MlState) : (ml.expire c now).last = ml.last := by
  unfold MlState.expire
  split <;> rfl

/-- The flag after an expiry. -/
theorem expire_active (c : Config) (now : Timestamp) (ml : MlState) :
    (ml.expire c now).active = (ml.active && decide (ml.elapsed c now ≤ c.motionTimeout)) := by
  unfold MlState.expire MlState.expired
  by_cases h : c.motionTimeout < ml.elapsed c now
  · cases hm : ml.active <;> simp [hm, h]
  · simp [h, Nat.le_of_not_lt h]

/-- All an expiry can do. -/
theorem expire_eq (c : Config) (now : Timestamp) (ml : MlState) :
    ml.expire c now = ⟨ml.active && decide (ml.elapsed c now ≤ c.motionTimeout), ml.last⟩ := by
  rw [← expire_active, ← expire_last c now ml]

/-- A latch of `TSW` bits stays one under every write. -/
theorem set_keeps_inv (c : Config) (now : Timestamp) : (MlState.set c now).Inv c := lowBits_lt c.tsw now

theorem expire_keeps_inv {c : Config} (now : Timestamp) {ml : MlState} (h : ml.Inv c) : (ml.expire c now).Inv c := by
  simpa [MlState.Inv] using h

end Sys2Proof.Machine
end

