-- ==== Sys2Proof/Laws/PerInstr.lean ====
section
/-! SUPPORT. The family TableRow: the word the encoder writes matches the operation's row of spec/opcode_table.json under
that row's mask, at the widths the table is written at. -/

namespace Sys2Proof.Laws.TableRow

/-- The statement about one operation. -/
def Statement (i : Instr) : Prop := encode Config.default i &&& i.tableMask = i.tableMatch

/-- A mask that leaves the low `n` bits out does not see an operand of `n` bits. -/
theorem masked_operand {n : Nat} (hn : n ≤ 32) (op : Byte) (m : Bool) (x : BitVec n) (mask : TW)
    (h : mask.setWidth n = 0) : TW.make op m (x.setWidth 32) &&& mask = TW.make op m 0 &&& mask := by
  have hx : mask &&& (x.setWidth 32).setWidth 48 = 0 := by
    rw [show (x.setWidth 32).setWidth 48 = x.setWidth 48 by simp [hn]]
    apply BitVec.eq_of_getLsbD_eq
    intro i hi
    have hi' := congrArg (fun y => y.getLsbD i) h
    by_cases hin : i < n
    · simp only [BitVec.getLsbD_setWidth, hin, decide_true, Bool.true_and] at hi'
      rw [BitVec.getLsbD_and, hi']
      simp
    · simp [BitVec.getLsbD_of_ge x i (by omega)]
  simp only [TW.make, BitVec.and_comm _ mask, BitVec.and_or_distrib_left, hx]
  simp

theorem nop : Statement .nop := by
  unfold Statement
  decide

theorem percent (mv : Int) : Statement (.percent mv) :=
  (masked_operand (by decide) 0x01 false (BitVec.ofInt 16 mv) 0xFFFFFFFF0000 (by decide)).trans
    (by decide : TW.make 0x01 false 0 &&& 0xFFFFFFFF0000 = 0x010000000000)

theorem feed (byte : Byte) : Statement (.feed byte) :=
  (masked_operand (by decide) 0x02 false byte 0xFFFFFFFFFF00 (by decide)).trans
    (by decide : TW.make 0x02 false 0 &&& 0xFFFFFFFFFF00 = 0x020000000000)

theorem trigger (now : Timestamp) : Statement (.trigger now) :=
  (masked_operand (by decide) 0x03 false (BitVec.setWidth 32 now) 0xFFFF00000000 (by decide)).trans
    (by decide : TW.make 0x03 false 0 &&& 0xFFFF00000000 = 0x030000000000)

theorem clear : Statement .clear := by
  unfold Statement
  decide

theorem query (now : Timestamp) : Statement (.query now) :=
  (masked_operand (by decide) 0x05 false (BitVec.setWidth 32 now) 0xFFFF00000000 (by decide)).trans
    (by decide : TW.make 0x05 false 0 &&& 0xFFFF00000000 = 0x050000000000)

theorem tick (lux : Binary32) (m : Bool) : Statement (.tick lux m) := by
  have h := masked_operand (by decide) 0x06 m lux (Instr.tick lux m).tableMask
    (show (0xFFFE00000000 : TW).setWidth 32 = 0 by decide)
  rw [BitVec.setWidth_eq] at h
  refine h.trans ?_
  cases m
  · exact (by decide : TW.make 0x06 false 0 &&& 0xFFFE00000000 = 0x060000000000)
  · exact (by decide : TW.make 0x06 true 0 &&& 0xFFFE00000000 = 0x060000000000)

end Sys2Proof.Laws.TableRow
end

