-- ==== Sys2Proof/Laws/Safety.lean ====
section
/-! SUPPORT. How the forms of the duty to poll (70_reset_and_hazards.md R269) stand to each other, and those of the duty
about the motion bit (R272), and the clock's readings. -/

namespace Sys2Proof

/-- A clock reading as a number, at a width that fits its carrier. -/
theorem clock_toNat {c : Config} (h : c.tsw ≤ 32) (time : Nat) : (c.clock time).toNat = time % 2 ^ c.tsw := by
  have hp : 2 ^ c.tsw ≤ 2 ^ 32 := Nat.pow_le_pow_right (by omega) h
  have hm : time % 2 ^ c.tsw < 2 ^ c.tsw := Nat.mod_lt _ (by positivity)
  rw [Config.clock, BitVec.toNat_ofNat, Nat.mod_eq_of_lt (by omega)]

/-- The difference of two readings is the true one, modulo the wrap. -/
theorem clock_sub {c : Config} (h : c.tsw ≤ 32) {t0 t1 : Nat} (ht : t0 ≤ t1) :
    (((c.clock t1).toNat : Int) - (c.clock t0).toNat) % 2 ^ c.tsw = ((t1 - t0) % 2 ^ c.tsw : Nat) := by
  rw [clock_toNat h, clock_toNat h]
  push_cast
  rw [← Int.sub_emod, Nat.cast_sub ht]

/-- The widths of a well-formed configuration fit `arg`, and its timeout is below the wrap (R178). -/
theorem wf_widths {c : Config} (h : c.wf = true) : c.tsw ≤ 32 ∧ c.mvw ≤ 32 ∧ c.motionTimeout < 2 ^ c.tsw := by
  simp only [Config.wf, Config.widthsFit, Config.timeoutFits, Bool.and_eq_true, decide_eq_true_eq] at h
  tauto

end Sys2Proof

namespace Sys2Proof.Machine

/-- Polling often enough meets R269's own duty. -/
theorem polledOften_queriedInTime {c : Config} {horizon : Nat} {ops : List TimedOp} {l due due' : Option Nat}
    (hd : due' = none ∨ due' = due) (h : Duty.polledOften c horizon l due ops) :
    Duty.queriedInTime c horizon due' ops := by
  have before : ∀ {time : Nat} {d d' : Option Nat}, d' = none ∨ d' = d → beforeDue time d → beforeDue time d' := by
    rintro time d _ (rfl | rfl) hb
    · trivial
    · exact hb
  induction ops generalizing l due due' with
  | nil => exact before hd h
  | cons o rest ih =>
    obtain ⟨time, op⟩ := o
    refine ⟨before hd h.1, ?_⟩
    cases op with
    | trigger _ => exact ih (.inr rfl) h.2
    | query _ => exact ih (.inl rfl) h.2
    | clear => exact ih (.inr rfl) h.2
    | nop => exact ih hd h.2
    | percent _ => exact ih hd h.2
    | feed _ => exact ih hd h.2
    | tick _ _ => exact ih hd h.2

/-- Polling often enough keeps every QUERY of a trigger in force before the wrap: a poll that finds the latch active comes at
most the timeout after the trigger, and the next one before the rest of `2^TSW` has passed. -/
theorem polledOften_queriedBeforeWrap {c : Config} (hc : c.motionTimeout < 2 ^ c.tsw) {horizon : Nat}
    {ops : List TimedOp} {l due : Option Nat} (hl : ∀ t, l = some t → ∃ d, due = some d ∧ d ≤ t + 2 ^ c.tsw)
    (h : Duty.polledOften c horizon l due ops) : Duty.queriedBeforeWrap c l ops := by
  induction ops generalizing l due with
  | nil => trivial
  | cons o rest ih =>
    obtain ⟨time, op⟩ := o
    cases op with
    | trigger _ =>
      refine ⟨trivial, ih (fun t ht => ⟨_, rfl, ?_⟩) h.2⟩
      cases ht
      simp only [Config.pollSpan]
      omega
    | query _ =>
      refine ⟨?_, ih (fun t ht => ?_) h.2⟩
      · cases l with
        | none => trivial
        | some t =>
          obtain ⟨d, rfl, hd⟩ := hl t rfl
          exact lt_of_lt_of_le h.1 hd
      · have ht' := ht
        simp only [Latch.perform, Option.filter_eq_some_iff, decide_eq_true_eq] at ht'
        refine ⟨time + c.pollSpan, by rw [ht]; rfl, ?_⟩
        simp only [Config.pollSpan]
        omega
    | clear => exact ⟨trivial, ih (fun t ht => nomatch ht) h.2⟩
    | nop => exact ⟨trivial, ih hl h.2⟩
    | percent _ => exact ⟨trivial, ih hl h.2⟩
    | feed _ => exact ⟨trivial, ih hl h.2⟩
    | tick _ _ => exact ⟨trivial, ih hl h.2⟩

/-! ### The motion bit of a TICK (R272) -/

/-- TRIGGERs between the QUERY and the TICK of a poll play no part in the duty. -/
theorem polled_triggers {c : Config} {fresh : Option (Timestamp × Bool)} {between : List Performed}
    (hb : ∀ o ∈ between, o.channel = .t) (rest : List Performed) :
    Duty.polled c fresh (between ++ rest) ↔ Duty.polled c fresh rest := by
  induction between with
  | nil => rfl
  | cons o l ih =>
    have ho := hb o (List.mem_cons_self ..)
    rw [← ih fun x hx => hb x (List.mem_cons_of_mem o hx)]
    simp only [List.cons_append, Duty.polled, ho]

/-- A POLL meets the duty whatever came before it and leaves it owing nothing: its QUERY reads the clock at the time of its
TICK, and its TICK takes the bit returned. -/
theorem polled_poll {c : Config} (fresh : Option (Timestamp × Bool)) (time : Nat) (lux : Binary32) (a : Bool)
    (brightness : Output) (manual manual' : Bool) {between : List Performed} (hb : ∀ o ∈ between, o.channel = .t)
    (rest : List Performed) :
    Duty.polled c fresh (⟨⟨time, .query (c.clock time)⟩, .p, .active a, manual⟩ ::
      (between ++ ⟨⟨time, .tick lux a⟩, .p, brightness, manual'⟩ :: rest)) ↔ Duty.polled c none rest := by
  show Duty.polled c (some (c.clock time, a)) _ ↔ _
  rw [polled_triggers hb]
  exact ⟨fun h => h.2, fun h => ⟨rfl, h⟩⟩

/-- The duty gives the table's short form, on channels that carry what they may. -/
theorem polled_motionBit {c : Config} {l : List Performed} {fresh : Option (Timestamp × Bool)} {bit : Bool}
    (hl : ∀ o ∈ l, o.op.legalOn o.channel = true) (hf : ∀ x, fresh = some x → x.2 = bit)
    (h : Duty.polled c fresh l) : Duty.motionBit bit (l.map fun o => (o.op, o.out)) := by
  induction l generalizing fresh bit with
  | nil => trivial
  | cons o rest ih =>
    have hr := fun x hx => hl x (List.mem_cons_of_mem o hx)
    have ho := hl o (List.mem_cons_self ..)
    obtain ⟨⟨time, op⟩, channel, out, manual⟩ := o
    cases channel with
    | p =>
      cases op with
      | query now => exact ih hr (by rintro _ ⟨⟩; rfl) h
      | tick lux m => exact ⟨hf _ h.1, ih hr (by rintro _ ⟨⟩) h.2⟩
      | nop => exact ih hr hf h
      | percent _ => exact ih hr (by rintro _ ⟨⟩) h
      | feed _ => exact ih hr (by rintro _ ⟨⟩) h
      | trigger _ => exact ih hr (by rintro _ ⟨⟩) h
      | clear => exact ih hr (by rintro _ ⟨⟩) h
    | t =>
      cases op with
      | trigger _ => exact ih hr hf h
      | query _ => cases ho
      | tick _ _ => cases ho
      | nop => cases ho
      | percent _ => cases ho
      | feed _ => cases ho
      | clear => cases ho

end Sys2Proof.Machine
end

