-- ==== Sys2Proof/Laws/VoltageToPercent.lean ====
section
/-! SUPPORT. Which segment a voltage falls in, and the bounds of a segment's value. -/

namespace Sys2Proof.Machine

/-- The breakpoints of a well-formed configuration ascend. -/
theorem wf_vpX {c : Config} (h : c.wf = true) :
    c.vpX[0] < c.vpX[1] ∧ c.vpX[1] < c.vpX[2] ∧ c.vpX[2] < c.vpX[3] ∧ c.vpX[3] < c.vpX[4] ∧
      c.vpX[4] < c.vpX[5] ∧ c.vpX[5] < c.vpX[6] := by
  simp only [Config.wf, Config.vpXAscending, Bool.and_eq_true, decide_eq_true_eq] at h
  tauto

/-- The percentages of a well-formed configuration do not descend, from 0 to 100. -/
theorem wf_vpY {c : Config} (h : c.wf = true) :
    c.vpY[0] = 0 ∧ c.vpY[0] ≤ c.vpY[1] ∧ c.vpY[1] ≤ c.vpY[2] ∧ c.vpY[2] ≤ c.vpY[3] ∧ c.vpY[3] ≤ c.vpY[4] ∧
      c.vpY[4] ≤ c.vpY[5] ∧ c.vpY[5] ≤ c.vpY[6] ∧ c.vpY[6] = 100 := by
  simp only [Config.wf, Config.vpYAscending, Bool.and_eq_true, decide_eq_true_eq] at h
  tauto

/-- The segment the model finds is the one that holds the voltage (R120). -/
theorem segmentIndex_of_mem {c : Config} (h : c.wf = true) {mv : Int} (i : Fin 6) (lo : c.vpX[i.val] ≤ mv)
    (hi : mv < c.vpX[i.val + 1]) : segmentIndex c mv = i := by
  have hx := wf_vpX h
  fin_cases i <;> simp only [segmentIndex] at * <;> split_ifs <;> first | rfl | omega

/-- Every voltage between the clamps is in the segment the model finds. -/
theorem segmentIndex_mem {c : Config} (h : c.wf = true) {mv : Int} (lo : c.vpX[0] ≤ mv) (hi : mv < c.vpX[6]) :
    ∃ i : Fin 6, segmentIndex c mv = i ∧ c.vpX[i.val] ≤ mv ∧ mv < c.vpX[i.val + 1] := by
  have hx := wf_vpX h
  refine ⟨_, rfl, ?_⟩
  unfold segmentIndex
  split_ifs <;> constructor <;> simp <;> omega

/-- The value of a segment lies between the percentages of its ends. -/
theorem segmentValue_bounds {c : Config} {mv : Int} (i : Fin 6) (hy : c.vpY[i.val] ≤ c.vpY[i.val + 1])
    (lo : c.vpX[i.val] ≤ mv) (hi : mv < c.vpX[i.val + 1]) :
    (c.vpY[i.val] : Int) ≤ segmentValue c mv i ∧ segmentValue c mv i ≤ c.vpY[i.val + 1] := by
  have hy' : (c.vpY[i.val] : Int) ≤ c.vpY[i.val + 1] := by exact_mod_cast hy
  unfold segmentValue
  have h0 := quotient_nonneg c.vpRound (n := (mv - c.vpX[i.val]) * ((c.vpY[i.val + 1] : Int) - c.vpY[i.val]))
    (k := c.vpX[i.val + 1] - c.vpX[i.val]) (mul_nonneg (by omega) (by omega)) (by omega)
  have h1 := quotient_le c.vpRound (d := (c.vpY[i.val + 1] : Int) - c.vpY[i.val]) (n := mv - c.vpX[i.val])
    (k := c.vpX[i.val + 1] - c.vpX[i.val]) (by omega) (by omega) (by omega)
  rw [mul_comm] at h1
  omega

end Sys2Proof.Machine
end

