-- ==== Sys2Proof/Tests/Slice0.lean ====
section
/-! SUPPORT. Tests: the well-formedness checks refuse an ill-formed term each; words written out from spec/30_encoding.md
decode to their operations; at most two one-step tests an operation, with results taken from spec/95_test_vectors.md; and
for every statement with hypotheses a witness that meets them. -/

namespace Sys2Proof.Tests

open Sys2Proof.Machine

/-! ### Helpers -/

/-- The state of an outcome that goes on. -/
def stateOf (o : Host.Outcome State Fault Refusal) : Option State :=
  match o with
  | .next s => some s
  | .fault _ => none
  | .refused _ => none

/-- The reason of an outcome that refuses a word. -/
def refusalOf (o : Host.Outcome State Fault Refusal) : Option Refusal :=
  match o with
  | .next _ => none
  | .fault _ => none
  | .refused r => some r

/-- The operation of a decoding. -/
def opOf (r : Except Reserved Instr) : Option Instr :=
  match r with
  | .ok i => some i
  | .error _ => none

/-- The reset state with other registers of FD. -/
def fdAt (mode : FdMode) (idx : Fin 4) (buf : Vector Byte 4) : State :=
  State.reset.setFd ⟨mode, idx, buf⟩

/-- The reset state with other registers of ML. -/
def mlAt (active : Bool) (last : Timestamp) : State := State.reset.setMl ⟨active, last⟩

/-- The reset state with other registers of BC. -/
def bcAt (current target base : Byte) (phase : Phase) (stepCount : Nat) (stepStart : Byte) : State :=
  State.reset.setBc ⟨current, target, base, phase, stepCount, stepStart⟩

/-- The reset state with an environment. -/
def envAt (env : List Presented) : State := { State.reset with env := env }

/-- Lux readings (95_test_vectors.md 2.6). -/
def lux50 : Binary32 := 0x42480000
def lux200 : Binary32 := 0x43480000
def lux300 : Binary32 := 0x43960000
def lux500 : Binary32 := 0x43FA0000

/-! ### WellFormed: each check refuses a term -/

theorem test_wf_default : Config.default.wf = true := by decide
theorem test_legalOn_refuses_clear_on_t : Instr.legalOn .t .clear = false := by decide
theorem test_legalOn_refuses_query_on_t : Instr.legalOn .t (.query 0) = false := by decide
theorem test_legalOn_refuses_feed_on_t : Instr.legalOn .t (.feed 0xA5) = false := by decide
theorem test_legalOn_refuses_nop_percent_tick_on_t :
    Instr.legalOn .t .nop = false ∧ Instr.legalOn .t (.percent 0) = false ∧
      Instr.legalOn .t (.tick 0 true) = false := by decide
theorem test_fits_refuses_percent :
    Instr.fits Config.default (.percent 32768) = false ∧ Instr.fits Config.default (.percent (-32769)) = false ∧
      Instr.fits Config.default (.percent (-32768)) = true := by decide
theorem test_fits_refuses_timestamp :
    Instr.fits { Config.default with tsw := 16 } (.trigger 65536) = false ∧
      Instr.fits { Config.default with tsw := 16 } (.query 65536) = false ∧
      Instr.fits { Config.default with tsw := 16 } (.query 65535) = true := by decide
theorem test_widthsFit_refuses_tsw : Config.wf { Config.default with tsw := 33 } = false := by decide
theorem test_widthsFit_refuses_mvw : Config.wf { Config.default with mvw := 33 } = false := by decide
theorem test_timeoutFits_refuses_narrow : Config.wf { Config.default with tsw := 12 } = false := by decide
theorem test_stepsFit_refuses_narrow : Config.wf { Config.default with stepw := 5 } = false := by decide
theorem test_timeoutFits_refuses : Config.wf { Config.default with motionTimeout := 2 ^ 32 } = false := by decide
theorem test_stepsPositive_refuses_rise : Config.wf { Config.default with riseSteps := 0 } = false := by decide
theorem test_stepsPositive_refuses_fall : Config.wf { Config.default with fallSteps := 0 } = false := by decide
theorem test_stepsFit_refuses_rise : Config.wf { Config.default with riseSteps := 255 } = false := by decide
theorem test_stepsFit_refuses_fall : Config.wf { Config.default with fallSteps := 255 } = false := by decide
theorem test_stepsFit_admits_254 :
    Config.wf { Config.default with riseSteps := 254, fallSteps := 254 } = true := by decide
theorem test_luxAscending_refuses : Config.wf { Config.default with luxT1 := 0x43960000 } = false := by decide
theorem test_luxAscending_refuses_nan : Config.wf { Config.default with luxT3 := 0x7FC00000 } = false := by decide
theorem test_vpXAscending_refuses :
    Config.wf { Config.default with vpX := #v[3000, 3300, 3300, 3700, 3800, 4000, 4200] } = false := by decide
theorem test_vpYAscending_refuses :
    Config.wf { Config.default with vpY := #v[0, 5, 20, 40, 60, 85, 99] } = false := by decide

/-! ### Decoding: words written out from R97 to R101 -/

theorem test_decode_nop : opOf (decode Config.default 0x000000000000) = some .nop := by decide
theorem test_decode_percent : opOf (decode Config.default 0x010000000EA6) = some (.percent 3750) := by decide
theorem test_decode_percent_negative : opOf (decode Config.default 0x010000008000) = some (.percent (-32768)) := by decide
theorem test_decode_feed : opOf (decode Config.default 0x0200000000A5) = some (.feed 0xA5) := by decide
theorem test_decode_trigger : opOf (decode Config.default 0x0300FFFFFF00) = some (.trigger 4294967040) := by decide
theorem test_decode_clear : opOf (decode Config.default 0x040000000000) = some .clear := by decide
theorem test_decode_query : opOf (decode Config.default 0x05000000176F) = some (.query 5999) := by decide
theorem test_decode_tick : opOf (decode Config.default 0x060142480000) = some (.tick lux50 true) := by decide
theorem test_decode_tick_still : opOf (decode Config.default 0x060044160000) = some (.tick 0x44160000 false) := by decide
theorem test_decode_bits :
    opOf (decode Config.default 0b000000100000000000000000000000000000000001010010) = some (.feed 0b01010010) := by decide
theorem test_decode_channel_t : opOf (decodeOn Config.default .t 0x0300000003FC) = some (.trigger 1020) := by decide

/-- R101 at other widths: 12 bits of voltage, 16 of a timestamp, and the first bit above them. -/
theorem test_decode_other_widths :
    opOf (decode { Config.default with mvw := 12 } 0x010000000FFF) = some (.percent (-1)) ∧
      opOf (decode { Config.default with mvw := 12 } 0x010000001000) = none ∧
      opOf (decode { Config.default with tsw := 16 } 0x03000000FFFF) = some (.trigger 65535) ∧
      opOf (decode { Config.default with tsw := 16 } 0x050000010000) = none := by decide

/-- Each way a word can be reserved (R103), at its boundary. -/
theorem test_decode_reserved :
    decode Config.default 0x070000000000 = .error .opcode ∧ decode Config.default 0xFF0000000000 = .error .opcode ∧
      decode Config.default 0x000200000000 = .error .zBits ∧ decode Config.default 0x068000000000 = .error .zBits ∧
      decode Config.default 0x050100000000 = .error .mBit ∧ decode Config.default 0x010000010000 = .error .argBits ∧
      decode Config.default 0x020000000100 = .error .argBits ∧ decode Config.default 0x040000000001 = .error .argBits ∧
      decode Config.default 0x000080000000 = .error .argBits ∧ decodeOn Config.default .t 0x040000000000 = .error .channel := by
  refine ⟨rfl, rfl, rfl, rfl, rfl, rfl, rfl, rfl, rfl, rfl⟩

/-- The two definitions the host evaluates. -/
theorem test_table_word : decodeTableWord 48 0x0200000000A5 = some (.feed 0xA5) := by decide
theorem test_table_word_reserved : decodeTableWord 48 0x070000000000 = none := by decide
theorem test_fetch_word :
    (stateOf (step (State.reset.withFetchWord 48 0x0300000003FC))).map State.ml = some ⟨true, 1020⟩ := by decide

/-! ### One step of each operation (95_test_vectors.md) -/

/-- 2.2, the line about NOP: a half received frame stays as it is. -/
theorem test_nop_keeps_a_half_frame :
    (stateOf (exec .nop (fdAt .accumulatingPayload 2 #v[0xA5, 0x01, 0, 0]))).map State.fd =
      some ⟨.accumulatingPayload, 2, #v[0xA5, 0x01, 0, 0]⟩ := by decide

/-- 2.1, row 3059: 0 under trunc. -/
theorem test_percent_trunc :
    (stateOf (exec (.percent 3059) State.reset)).map State.out = some (.pct 0) := by decide

/-- 2.1, row 4199: 100 under nearest. -/
theorem test_percent_nearest :
    (stateOf (exec (.percent 4199) { State.reset with cfg := { Config.default with vpRound := .nearest } })).map
      State.out = some (.pct 100) := by decide

/-- 2.2, row A5 81 2C 52: bit 7 of a data byte is ignored. -/
theorem test_feed_last_byte :
    (stateOf (exec (.feed 0x52) (fdAt .accumulatingPayload 3 #v[0xA5, 0x81, 0x2C, 0]))).map State.out =
      some (.frame (some ⟨0xA5, 1, 44, 0x52, 172⟩)) := by decide

/-- 2.2, row A5 01 2C D2: bit 7 of the checksum byte is compared. -/
theorem test_feed_checksum_bit_seven :
    (stateOf (exec (.feed 0xD2) (fdAt .accumulatingPayload 3 #v[0xA5, 0x01, 0x2C, 0]))).map
      (fun s => (s.out, s.fd.mode, s.fd.idx)) = some (.frame none, .searchingHeader, 0) := by decide

/-- 2.3: a second TRIGGER replaces the timestamp, here by a smaller one (no maximum is taken, R29). -/
theorem test_trigger_takes_no_maximum :
    (stateOf (exec (.trigger 1000) (mlAt true 3000))).map State.ml = some ⟨true, 1000⟩ := by decide

/-- 2.3: CLEAR keeps the timestamp. -/
theorem test_clear_keeps_last :
    (stateOf (exec .clear (mlAt true 9000))).map State.ml = some ⟨false, 9000⟩ := by decide

/-- 2.3: at exactly the timeout the latch is active. -/
theorem test_query_boundary :
    (stateOf (exec (.query 6000) (mlAt true 1000))).map (fun s => (s.out, s.ml)) =
      some (.active true, ⟨true, 1000⟩) := by decide

/-- 2.3: across the wrap of the clock, elapsed 5120. -/
theorem test_query_wrap :
    (stateOf (exec (.query 4864) (mlAt true 4294967040))).map (fun s => (s.out, s.ml)) =
      some (.active false, ⟨false, 4294967040⟩) := by decide

/-- R178 with timestamps of 16 bits: from 65281 to 4864 is 5119 across the wrap, which is expired. -/
theorem test_query_wrap_16 :
    (stateOf (exec (.query 4864) { mlAt true 65281 with cfg := { Config.default with tsw := 16 } })).map
      (fun s => (s.out, s.ml)) = some (.active false, ⟨false, 65281⟩) := by decide

/-- 2.6 (e): a target raised on the same side while Rising does not restart the curve. -/
theorem test_tick_raised_target :
    (stateOf (exec (.tick lux50 true) (bcAt 27 110 110 .rising 20 0))).map State.bc =
      some ⟨70, 255, 110, .rising, 21, 0⟩ := by decide

/-- 2.6 (f): lux 500.0 has base 0, motion does not boost, and a fall starts. -/
theorem test_tick_bright_room :
    (stateOf (exec (.tick lux500 true) (bcAt 110 110 110 .idle 40 0))).map (fun s => (s.bc, s.brightness)) =
      some (⟨107, 0, 0, .falling, 1, 110⟩, 107) := by decide

/-! ### Witnesses: for each statement with hypotheses, values that meet them all, at the boundary of each clause -/

/-- The ends of a voltage's range and a timestamp's, at two widths. -/
theorem test_witness_DecodeOfEncode :
    Config.default.widthsFit = true ∧ Instr.fits Config.default (.percent (-32768)) = true ∧
      Instr.fits Config.default (.percent 32767) = true ∧ Instr.fits Config.default (.trigger 0xFFFFFFFF) = true ∧
      Config.widthsFit { Config.default with tsw := 16, mvw := 12 } = true ∧
      Instr.fits { Config.default with tsw := 16, mvw := 12 } (.percent (-2048)) = true ∧
      Instr.fits { Config.default with tsw := 16, mvw := 12 } (.query 65535) = true := by decide

theorem test_witness_EncodeOfDecodeIsTheWord :
    decode Config.default 0x01000000FFFF = .ok (.percent (-1)) ∧ decode Config.default 0x0601FFFFFFFF = .ok (.tick 0xFFFFFFFF true) :=
  ⟨rfl, rfl⟩

theorem test_witness_ReservedWords_on_p :
    (envAt [.onP 0x070000000000]).env = .onP 0x070000000000 :: [] ∧ reservedByFields Config.default 0x070000000000 ∧
      ¬ reservedByFields Config.default 0x0601FFFFFFFF ∧ reservedByFields Config.default 0x050100000000 ∧ ¬ reservedByFields Config.default 0x0200000000FF ∧
      reservedByFields Config.default 0x020000000100 ∧ ¬ reservedByFields Config.default 0x01000000FFFF ∧ reservedByFields Config.default 0x010000010000 ∧
      reservedByFields Config.default 0x000000000001 ∧ reservedByFields Config.default 0x000200000000 :=
  ⟨rfl, by decide, by decide, by decide, by decide, by decide, by decide, by decide, by decide, by decide⟩

theorem test_witness_ReservedWords_on_t :
    (envAt [.onT 0x050000000000]).env = .onT 0x050000000000 :: [] ∧ bitsOf 0x050000000000 47 40 ≠ 3 ∧
      (envAt [.onT 0x0300FFFFFFFF]).env = .onT 0x0300FFFFFFFF :: [] ∧ bitsOf 0x0300FFFFFFFF 47 40 = 3 ∧
      ¬ reservedByFields Config.default 0x0300FFFFFFFF ∧ reservedByFields Config.default 0x030100000000 :=
  ⟨rfl, by decide, rfl, by decide, by decide, by decide⟩

theorem test_witness_OperandsAreAssembled :
    decode Config.default 0x010000007FFF = .ok (.percent 32767) ∧ decode Config.default 0x010000008000 = .ok (.percent (-32768)) ∧
      decode Config.default 0x0200000000FF = .ok (.feed 0xFF) ∧ decode Config.default 0x0300FFFFFFFF = .ok (.trigger 0xFFFFFFFF) ∧
      decode Config.default 0x0500FFFFFFFF = .ok (.query 0xFFFFFFFF) ∧ decode Config.default 0x040000000000 = .ok .clear ∧
      decode Config.default 0x000000000000 = .ok .nop ∧ decode Config.default 0x060000000000 = .ok (.tick 0 false) ∧
      decode Config.default 0x0601FFFFFFFF = .ok (.tick 0xFFFFFFFF true) :=
  ⟨rfl, rfl, rfl, rfl, rfl, rfl, rfl, rfl, rfl⟩

theorem test_witness_DecoderAgreesWithTheOpcodeTable :
    decode Config.default 0x0200000000FF = .ok (.feed 0xFF) ∧
      (0x01000000FFFF : TW) &&& (Instr.percent 0).tableMask = (Instr.percent 0).tableMatch ∧
      (0x0601FFFFFFFF : TW) &&& (Instr.tick 0 false).tableMask = (Instr.tick 0 false).tableMatch := by
  refine ⟨rfl, ?_⟩
  decide

theorem test_witness_StepPerforms :
    decode Config.default 0x0300000003FC = .ok (.trigger 1020) ∧
      (envAt [.onP 0x0300000003FC]).env = .onP 0x0300000003FC :: [] ∧
      (envAt [.onT 0x0300000003FC]).env = .onT 0x0300000003FC :: [] ∧ Instr.legalOn .t (.trigger 1020) = true ∧
      (envAt [.both 0x0300000003FC 0x0300000003FD]).env = .both 0x0300000003FC 0x0300000003FD :: [] :=
  ⟨rfl, rfl, rfl, rfl, rfl⟩

theorem test_witness_StepWithNothing :
    (envAt []).env = [] ∧ (envAt [.nothing, .reset]).env = .nothing :: [.reset] := ⟨rfl, rfl⟩

theorem test_witness_Coincidence :
    (envAt [.both 0x0500000017D4 0x0300000017D4]).env = .both 0x0500000017D4 0x0300000017D4 :: [] ∧
      decode Config.default 0x0500000017D4 = .ok (.query 6100) ∧ decode Config.default 0x0300000017D4 = .ok (.trigger 6100) :=
  ⟨rfl, rfl, rfl⟩

/-- 3.3, order A: on a coincidence the QUERY expires the latch and the trigger's writes remain. -/
theorem test_coincidence :
    ((stateOf (step { mlAt true 1000 with env := [.both 0x0500000017D4 0x0300000017D4] })).map
      (fun s => (s.out, s.ml)) = some (.active false, ⟨false, 1000⟩)) ∧
    ((stateOf (step { mlAt true 1000 with env := [.both 0x0500000017D4 0x0300000017D4] })).bind
      (fun s => stateOf (step s))).map State.ml = some ⟨true, 6100⟩ := by decide

theorem test_witness_ResetEvent :
    ({ fdAt .accumulatingPayload 2 #v[0xA5, 1, 0, 0] with env := [.reset, .nothing] } : State).env =
      .reset :: [.nothing] := rfl

/-- States of every mode and phase that meet the invariants: the hypothesis of EveryOperationCompletes and of
ConstantOperandsSettle. -/
theorem test_witness_Inv :
    State.reset.Inv ∧ (fdAt .accumulatingPayload 1 #v[0xA5, 0, 0, 0]).Inv ∧
      (fdAt .accumulatingPayload 3 #v[0xA5, 1, 2, 0]).Inv ∧ (bcAt 27 110 110 .rising 20 0).Inv ∧
      (bcAt 110 110 110 .rising 40 0).Inv ∧ (bcAt 175 110 110 .falling 20 255).Inv ∧
      (bcAt 110 110 110 .falling 60 255).Inv ∧ (bcAt 255 255 110 .idle 41 0).Inv :=
  ⟨by decide, by decide, by decide, by decide, by decide, by decide, by decide, by decide⟩

theorem test_witness_EveryStepKeepsTheInvariants :
    ({ bcAt 27 110 110 .rising 20 0 with env := [.onP 0x060142480000] } : State).Inv ∧
      ∃ t, step { bcAt 27 110 110 .rising 20 0 with env := [.onP 0x060142480000] } = .next t :=
  ⟨by decide, _, rfl⟩

theorem test_witness_LegalEnvironment :
    (envAt [.nothing, .onP 0x0200000000A5, .onT 0x0300000003FC, .both 0x040000000000 0x0300000003FC,
      .reset]).envLegal = true := by decide

theorem test_witness_PresentedTrace :
    State.reset.cfg.widthsFit = true ∧ (∀ x ∈ [TraceLine.mk .t (.trigger 1020) .none, ⟨.p, .query 1050, .active true⟩],
        x.op.legalOn x.channel = true ∧ x.op.fits Config.default = true) ∧
      (envAt ([TraceLine.mk .t (.trigger 1020) .none, ⟨.p, .query 1050, .active true⟩].map (TraceLine.presented Config.default) ++
        [.nothing])).env =
        [TraceLine.mk .t (.trigger 1020) .none, ⟨.p, .query 1050, .active true⟩].map (TraceLine.presented Config.default) ++
          [.nothing] ∧
      traceHolds [TraceLine.mk .t (.trigger 1020) .none, ⟨.p, .query 1050, .active true⟩] State.reset = true ∧
      traceHolds [TraceLine.mk .t (.trigger 1020) .none, ⟨.p, .query 1050, .active false⟩] State.reset = false := by
  refine ⟨by decide, by decide, rfl, by decide, by decide⟩

theorem test_witness_ParametersNeverChange : ∃ t, step (envAt [.reset]) = .next t := ⟨_, rfl⟩

/-- Two states of one configuration that share one unit's registers and no other's. -/
theorem test_witness_UnitsShareNoRegisters :
    (mlAt true 7).cfg = (bcAt 9 9 9 .idle 0 0).cfg ∧ (mlAt true 7).fd = (bcAt 9 9 9 .idle 0 0).fd ∧
      Instr.unit (.feed 0xA5) = some .fd ∧ (fdAt .searchingHeader 0 #v[1, 1, 1, 1]).ml = (bcAt 9 9 9 .idle 0 0).ml ∧
      Instr.unit (.query 8) = some .ml ∧ (fdAt .searchingHeader 0 #v[1, 1, 1, 1]).bc = (mlAt true 7).bc ∧
      Instr.unit (.tick lux50 true) = some .bc ∧ Instr.unit .nop = none :=
  ⟨rfl, rfl, rfl, rfl, rfl, rfl, rfl, rfl⟩

theorem test_witness_OperationsOnDifferentUnits :
    Instr.unit (.feed 0xA5) ≠ Instr.unit (.tick lux50 true) ∧ Instr.unit .nop ≠ Instr.unit .clear ∧
      Instr.unit (.percent 3750) ≠ Instr.unit (.query 0) := by decide

/-- The segments' ends, and both clamps, under the default configuration and under `nearest`. -/
theorem test_witness_PercentFollowsTheSegmentFormula :
    State.reset.cfg.wf = true ∧
      ({ State.reset with cfg := { Config.default with vpRound := .nearest } } : State).cfg.wf = true ∧
      (2999 : Int) < State.reset.cfg.vpX[0] ∧
      State.reset.cfg.vpX[6] ≤ (4200 : Int) ∧
      (State.reset.cfg.vpX[0] ≤ (3000 : Int) ∧
        (3000 : Int) < State.reset.cfg.vpX[1]) ∧
      (State.reset.cfg.vpX[5] ≤ (4199 : Int) ∧
        (4199 : Int) < State.reset.cfg.vpX[6]) := by decide

/-- A value at an end of each clause of the table. -/
theorem test_witness_PercentOfThisHardware :
    State.reset.cfg = Config.default ∧ (2999 : Int) < 3000 ∧
      (-32768 : Int) < 3000 ∧ (3000 : Int) = 3000 ∧
      4200 ≤ (4200 : Int) ∧
      (3000 ≤ (3299 : Int) ∧ (3299 : Int) < 3300) ∧
      (3300 ≤ (3300 : Int) ∧ (3300 : Int) < 3600) ∧
      (3600 ≤ (3600 : Int) ∧ (3600 : Int) < 3700) ∧
      (3700 ≤ (3700 : Int) ∧ (3700 : Int) < 3800) ∧
      (3800 ≤ (3800 : Int) ∧ (3800 : Int) < 4000) ∧
      (4000 ≤ (4199 : Int) ∧ (4199 : Int) < 4200) := by decide

theorem test_witness_PercentIsBoundedAndMonotone :
    State.reset.cfg.wf = true ∧ (-1 : Int) ≤ (4200 : Int) := by decide

theorem test_witness_PercentReachesItsSteps :
    State.reset.cfg = Config.default ∧
      (1, 3060) ∈ ([(1, 3060), (5, 3300)] : List (Nat × Int)) := by decide

theorem test_witness_PercentIsPure : State.reset.cfg = Config.default := rfl

theorem test_witness_FeedWhileSearching :
    State.reset.fd.mode = .searchingHeader ∧ (0xA5 : Byte) = 0xA5 ∧ (0xA4 : Byte) ≠ 0xA5 := by decide

theorem test_witness_FeedWhileAccumulating :
    ((fdAt .accumulatingPayload 1 #v[0xA5, 0, 0, 0]).fd.mode = .accumulatingPayload ∧
        (fdAt .accumulatingPayload 1 #v[0xA5, 0, 0, 0]).fd.idx = 1) ∧
      (fdAt .accumulatingPayload 2 #v[0xA5, 1, 0, 0]).fd.mode = .accumulatingPayload ∧
        (fdAt .accumulatingPayload 2 #v[0xA5, 1, 0, 0]).fd.idx = 2 := by decide

/-- 2.2: the byte 0x52 completes the frame A5 01 2C, the byte 0x53 does not. -/
theorem test_witness_FeedCompletesAFrame :
    (fdAt .accumulatingPayload 3 #v[0xA5, 0x01, 0x2C, 0]).fd.mode = .accumulatingPayload ∧
      (fdAt .accumulatingPayload 3 #v[0xA5, 0x01, 0x2C, 0]).fd.idx = 3 ∧
      (0x52 : Byte).toNat = ((0xA5 : Byte).toNat + (0x01 : Byte).toNat + (0x2C : Byte).toNat) % 128 ∧
      (0x53 : Byte).toNat ≠ ((0xA5 : Byte).toNat + (0x01 : Byte).toNat + (0x2C : Byte).toNat) % 128 := by decide

theorem test_witness_ValidityIgnoresBitSeven :
    (fdAt .accumulatingPayload 3 #v[0xA5, 0x81, 0x2C, 0]).fd.mode = .accumulatingPayload ∧
      (fdAt .accumulatingPayload 3 #v[0xA5, 0x81, 0x2C, 0]).fd.idx = 3 ∧
      (fdAt .accumulatingPayload 3 #v[0xA5, 0x81, 0x2C, 0]).fd.buf[0] = 0xA5 ∧ 128 ≤ (0x80 : Byte).toNat := by decide

theorem test_witness_NextByteAfterAFrame :
    (fdAt .accumulatingPayload 3 #v[0xA5, 0, 0, 0]).fd.mode = .accumulatingPayload ∧
      (fdAt .accumulatingPayload 3 #v[0xA5, 0, 0, 0]).fd.idx = 3 ∧ (0xA4 : Byte) ≠ 0xA5 := by decide

/-- Also the hypotheses of GroupOfFourBytes and TheTwoExamplesOfAFalseHeader. -/
theorem test_witness_LeadingNoise :
    State.reset.fd.mode = .searchingHeader ∧ (∀ b ∈ ([0x00, 0xA4] : List Byte), b ≠ 0xA5) ∧
      ([0xA5] : List Byte) ≠ [] := by decide

theorem test_witness_DecoderSearchesAgain :
    (fdAt .accumulatingPayload 1 #v[0xA5, 0, 0, 0]).fd.Inv ∧
      (fdAt .accumulatingPayload 1 #v[0xA5, 0, 0, 0]).fd.mode = .accumulatingPayload ∧
      (fdAt .accumulatingPayload 3 #v[0xA5, 0, 0, 0]).fd.Inv := by decide

/-- Three bytes before, the least the statement takes, and a frame before, from a decoder in the middle of a group. -/
theorem test_witness_CorruptionLasts :
    (fdAt .accumulatingPayload 1 #v[0xA5, 0, 0, 0]).fd.Inv ∧
      (∀ x ∈ [Piece.filler 0x00, .filler 0xFF, .filler 0x52], x.wellFormed = true) ∧
      3 ≤ ([Piece.filler 0x00, .filler 0xFF, .filler 0x52].flatMap Piece.bytes).length ∧
      (∀ x ∈ [Piece.frame 127 127], x.wellFormed = true) ∧
      3 ≤ ([Piece.frame 127 127].flatMap Piece.bytes).length ∧ (Piece.filler 0xA5).wellFormed = false := by decide

/-- The checksum of a conforming sender (95_test_vectors.md 2.2: A5 7F 7F 23 and A5 02 10 37). -/
theorem test_true_frames :
    (Piece.frame 127 127).bytes = [0xA5, 0x7F, 0x7F, 0x23] ∧ (Piece.frame 2 16).bytes = [0xA5, 0x02, 0x10, 0x37] ∧
      (trueFrame 2 16).concentration = 272 := by decide

theorem test_witness_QueryAfterClear :
    ∀ i ∈ [Instr.query 0, .clear, .feed 0xA5], ∀ n, i ≠ .trigger n := by
  intro i hi n
  rcases List.mem_cons.mp hi with rfl | hi
  · exact nofun
  · rcases List.mem_cons.mp hi with rfl | hi
    · exact nofun
    · rcases List.mem_singleton.mp hi with rfl
      exact nofun

/-- The operands of the statements about words of TRIGGER and QUERY, and of a CLEAR that goes on. -/
theorem test_witness_TriggerClearQuery :
    Instr.fits State.reset.cfg (.trigger 0xFFFFFFFF) = true ∧ Instr.fits State.reset.cfg (.query 0xFFFFFFFF) = true ∧
      ∃ t, exec .clear (mlAt true 7) = .next t := ⟨by decide, by decide, _, rfl⟩

/-- The wrap of the clock, and R177's example: a QUERY at 100, `2^32 + 100` milliseconds after a trigger at 0. -/
theorem test_witness_QueryOnTrueTimes :
    State.reset.cfg.widthsFit = true ∧ 4294967040 ≤ 4294967040 + 5000 ∧ 0 ≤ 2 ^ 32 + 100 ∧
      State.reset.cfg.clock (2 ^ 32 + 100) = 100 := by decide

/-- Each clause of the statement: a fall by CLEAR, a fall by a late QUERY, a rise, a written timestamp. -/
theorem test_witness_MotionEnds :
    ((stateOf (exec .clear (mlAt true 1000))).map State.ml = some ⟨false, 1000⟩) ∧
      ((stateOf (exec (.query 6001) (mlAt true 1000))).map State.ml = some ⟨false, 1000⟩) ∧
      ((stateOf (exec (.trigger 0) (mlAt false 1000))).map State.ml = some ⟨true, 0⟩) := by decide

theorem test_witness_RepeatedOperations :
    (∃ t, exec (.query 0) State.reset = .next t) ∧ (∃ t, exec .clear State.reset = .next t) ∧
      (∃ t, exec (.trigger 0) State.reset = .next t) ∧
      (stateOf (exec (.tick lux50 false) (bcAt 110 110 110 .rising 40 0))).map (fun s => s.bc.phase) = some .idle :=
  ⟨⟨_, rfl⟩, ⟨_, rfl⟩, ⟨_, rfl⟩, by decide⟩

/-- A query at exactly the timeout is not late. -/
theorem test_witness_TriggerHolds :
    ∀ i ∈ [Instr.query 6000], i ≠ .clear ∧ (∀ n, i ≠ .trigger n) ∧
      ∀ n, i = .query n →
        ((n.toNat : Int) - (1000 : Timestamp).toNat) % 2 ^ State.reset.cfg.tsw ≤ State.reset.cfg.motionTimeout := by
  intro i hi
  rcases List.mem_singleton.mp hi with rfl
  refine ⟨nofun, nofun, fun n hn => ?_⟩
  cases hn
  decide

/-- A trigger shortly before the clock wraps, polls after the wrap, and a clear. -/
def acrossTheWrap : List TimedOp :=
  [⟨4294967040, .trigger 4294967040⟩, ⟨4294967552, .query 256⟩, ⟨4294972160, .query 4864⟩, ⟨4294972160, .clear⟩,
    ⟨4294972161, .query 4865⟩]

theorem test_witness_LatchRefinesUnboundedTime :
    State.reset.cfg.widthsFit = true ∧ State.reset.ml.active = false ∧
      Duty.timeForward State.reset.cfg 0 acrossTheWrap ∧ Duty.queriedBeforeWrap State.reset.cfg none acrossTheWrap ∧
      Latch.answers 5000 none acrossTheWrap = [true, false, false] := by
  refine ⟨by decide, rfl, ?_, ?_, by decide⟩
  · exact ⟨by decide, by decide, by decide, by decide, by decide, by decide, by decide, by decide, by decide, trivial⟩
  · exact ⟨trivial, (by decide : 4294967552 < 4294967040 + 2 ^ 32), (by decide : 4294972160 < 4294967040 + 2 ^ 32),
      trivial, trivial, trivial⟩

theorem test_witness_PollingOftenEnough :
    State.reset.cfg.wf = true ∧ State.reset.ml.active = false ∧ Duty.timeForward State.reset.cfg 0 acrossTheWrap ∧
      Duty.polledOften State.reset.cfg 4294972161 none none acrossTheWrap := by
  refine ⟨by decide, rfl, test_witness_LatchRefinesUnboundedTime.2.2.1, ?_⟩
  exact ⟨trivial, (by decide : 4294967552 < 4294967040 + (2 ^ 32 - 5000)),
    (by decide : 4294972160 < 4294967552 + (2 ^ 32 - 5000)), trivial, trivial, trivial⟩

/-- R269's bound, `2^32 - 5000 = 4294962296`: a poll one millisecond below it meets the duty, one at it does not, and neither
does a latch left active that long with no poll. -/
theorem test_queried_in_time_boundary :
    Duty.queriedInTime Config.default 4294962296 none [⟨0, .trigger 0⟩, ⟨4294962295, .query 4294962295⟩] ∧
      ¬ Duty.queriedInTime Config.default 4294962296 none [⟨0, .trigger 0⟩, ⟨4294962296, .query 4294962296⟩] ∧
      Duty.queriedInTime Config.default 4294962295 none [⟨0, .trigger 0⟩] ∧
      ¬ Duty.queriedInTime Config.default 4294962296 none [⟨0, .trigger 0⟩] ∧
      Duty.queriedInTime Config.default 4294962296 none [⟨0, .trigger 0⟩, ⟨0, .clear⟩] := by
  refine ⟨⟨trivial, (by decide : 4294962295 < 4294962296), trivial⟩, fun h => ?_,
    ⟨trivial, (by decide : 4294962295 < 4294962296)⟩, fun h => ?_, trivial, (by decide : 0 < 4294962296), trivial⟩
  · exact absurd h.2.1 (by decide : ¬ 4294962296 < 4294962296)
  · exact absurd h.2 (by decide : ¬ 4294962296 < 4294962296)

/-- A reading in each bracket and at each threshold (95_test_vectors.md 2.6), and the table's values. -/
theorem test_witness_BaseFollowsTheLuxTable :
    State.reset.cfg = Config.default ∧
      ([0xFF800000, 0xC0A00000, 0x80000000, 0, 0x42C7FAE1, 0x42C80000, 0x4395FEB8, 0x43960000, 0x43F9FEB8, 0x43FA0000,
        0x7F800000, 0x7FC00000] : List Binary32).map (baseOf Config.default) =
        [110, 110, 110, 110, 110, 80, 80, 50, 50, 0, 0, 110] := by decide

theorem test_witness_BaseFollowsFromBitPatterns :
    State.reset.cfg.luxAscending = true ∧ 0 < State.reset.cfg.luxT1.toNat ∧
      (0x7F800000 : Binary32).toNat ≤ 0x7F800000 ∧ ¬ (0x7F800001 : Binary32).toNat ≤ 0x7F800000 := by decide

/-- Each clause: base above 0 with and without motion, base 0 with motion. -/
theorem test_witness_MotionBoosts :
    (stateOf (exec (.tick lux50 true) State.reset)).map (fun s => (s.bc.base, s.bc.target)) = some (110, 255) ∧
      (stateOf (exec (.tick lux50 false) State.reset)).map (fun s => (s.bc.base, s.bc.target)) = some (110, 110) ∧
      (stateOf (exec (.tick lux500 true) State.reset)).map (fun s => (s.bc.base, s.bc.target)) = some (0, 0) ∧
      State.reset.cfg = Config.default := by decide

/-- 2.6 (a): the curve's last step, and the snap of the tick after it. -/
theorem test_witness_TickTowardABrighterTarget :
    (bcAt 104 110 110 .rising 39 0).Inv ∧
      (stateOf (exec (.tick lux50 false) (bcAt 104 110 110 .rising 39 0))).map State.bc =
        some ⟨110, 110, 110, .rising, 40, 0⟩ ∧
      (bcAt 110 110 110 .rising 40 0).Inv ∧
      (stateOf (exec (.tick lux50 true) (bcAt 110 110 110 .rising 40 0))).map State.bc =
        some ⟨255, 255, 110, .idle, 41, 0⟩ := by decide

/-- 2.6 (c): a reversal, and by R207 the snap of a fall. -/
theorem test_witness_TickTowardADarkerTarget :
    (bcAt 143 255 110 .rising 30 0).Inv ∧
      (stateOf (exec (.tick lux50 false) (bcAt 143 255 110 .rising 30 0))).map State.bc =
        some ⟨142, 110, 110, .falling, 1, 143⟩ ∧
      (bcAt 110 110 110 .falling 60 255).Inv ∧
      (stateOf (exec (.tick lux200 false) (bcAt 110 110 110 .falling 60 255))).map State.bc =
        some ⟨80, 80, 80, .idle, 61, 255⟩ := by decide

/-- 2.6 (g): a target equal to the current brightness in the middle of a fall. -/
theorem test_witness_TickAtTheTarget :
    (stateOf (exec (.tick lux200 false) (bcAt 80 50 50 .falling 18 110))).map State.bc =
      some ⟨80, 80, 80, .idle, 18, 110⟩ := by decide

theorem test_witness_RiseFromRest :
    State.reset.Inv ∧ State.reset.bc.phase = .idle ∧
      State.reset.bc.current < targetOf (baseOf State.reset.cfg lux50) false ∧ 1 ≤ 40 ∧
      40 ≤ State.reset.cfg.riseSteps := by decide

theorem test_witness_FallFromRest :
    (bcAt 110 110 110 .idle 40 0).Inv ∧ (bcAt 110 110 110 .idle 40 0).bc.phase = .idle ∧
      targetOf (baseOf (bcAt 110 110 110 .idle 40 0).cfg lux300) false < (bcAt 110 110 110 .idle 40 0).bc.current ∧
      1 ≤ 60 ∧ 60 ≤ (bcAt 110 110 110 .idle 40 0).cfg.fallSteps := by decide

/-- 3.2: the fall of 255 to 110 begins with 251. -/
theorem test_fall_starts :
    (stateOf (exec (.tick lux50 false) (bcAt 255 255 110 .idle 40 0))).map State.brightness = some 251 := by decide

/-- The two cases of the first TICK: a bright room and a dark one. -/
theorem test_witness_FirstOperations :
    (stateOf (exec (.tick lux500 true) State.reset)).map State.bc = some ⟨0, 0, 0, .idle, 0, 0⟩ ∧
      (stateOf (exec (.tick lux50 false) State.reset)).map State.bc = some ⟨0, 110, 110, .rising, 1, 0⟩ := by decide

/-- Two states that differ in every register no later operation reads before it is written. -/
theorem test_witness_StaleRegisters :
    (State.mk Config.default ⟨.accumulatingPayload, 2, #v[0xA5, 1, 2, 3]⟩ ⟨false, 0⟩ ⟨7, 7, 7, .idle, 0, 0⟩ .none
      []).agree
      (State.mk Config.default ⟨.accumulatingPayload, 2, #v[0xA5, 1, 9, 9]⟩ ⟨false, 5⟩ ⟨7, 8, 8, .idle, 41, 3⟩
        (.active true) [.reset]) := by decide

theorem test_witness_TriggerInsideAPoll :
    ([] : List Timestamp) = [] ∧ ([6100] : List Timestamp) = [] ++ [6100] := ⟨rfl, rfl⟩

/-- 3.3, order A: the TICK of the POLL does not use the trigger that fell between. -/
theorem test_poll_with_a_trigger_between :
    ((poll 6100 lux50 [6100] (mlAt true 1000)).map fun r => (r.1.ml, r.1.bc, r.2)) =
      some (⟨true, 6100⟩, ⟨0, 110, 110, .rising, 1, 0⟩, [.active false, .none, .brightness 0]) := by decide

/-- An operation of channel P at a time, in automatic mode. -/
def onP (time : Nat) (op : Instr) (out : Output) : Performed := ⟨⟨time, op⟩, .p, out, false⟩

/-- R272 with R105: the POLL of 3.3 meets the duty, with a trigger between and a NOP; a TICK after a CLEAR, one whose QUERY is
of an earlier time, a second TICK after one QUERY, one with the other bit and one with no QUERY do not. -/
theorem test_polled :
    Duty.polled Config.default none [onP 6100 (.query 6100) (.active false), ⟨⟨6100, .trigger 6100⟩, .t, .none, false⟩,
      onP 6100 .nop .none, onP 6100 (.tick lux50 false) (.brightness 0)] ∧
    ¬ Duty.polled Config.default none [onP 6000 (.query 6000) (.active true), onP 6000 .clear .none,
      onP 6000 (.tick lux50 true) (.brightness 0)] ∧
    ¬ Duty.polled Config.default none [onP 6000 (.query 6000) (.active true),
      onP 6050 (.tick lux50 true) (.brightness 0)] ∧
    ¬ Duty.polled Config.default none [onP 6000 (.query 6000) (.active true), onP 6000 (.tick lux50 true) (.brightness 0),
      onP 6000 (.tick lux50 true) (.brightness 0)] ∧
    ¬ Duty.polled Config.default none [onP 6000 (.query 6000) (.active true),
      onP 6000 (.tick lux50 false) (.brightness 0)] ∧
    ¬ Duty.polled Config.default none [onP 6000 (.tick lux50 true) (.brightness 0)] := by
  refine ⟨⟨by decide, trivial⟩, fun h => ?_, fun h => ?_, fun h => ?_, fun h => ?_, fun h => ?_⟩
  · exact absurd h.1 (by decide)
  · exact absurd h.1 (by decide)
  · exact absurd h.2.1 (by decide)
  · exact absurd h.1 (by decide)
  · exact absurd h.1 (by decide)

/-- R272: in manual mode a QUERY may be issued and a TICK may not. -/
theorem test_no_tick_in_manual :
    Duty.noTickInManual [⟨⟨0, .query 0⟩, .p, .active false, true⟩, onP 50 (.tick lux50 false) (.brightness 0)] ∧
      ¬ Duty.noTickInManual [⟨⟨0, .tick lux50 false⟩, .p, .brightness 0, true⟩] := by
  refine ⟨fun o ho hm lux m => ?_, fun h => h _ (List.mem_singleton.mpr rfl) rfl lux50 false rfl⟩
  rcases List.mem_cons.mp ho with rfl | ho
  · exact nofun
  · rcases List.mem_singleton.mp ho with rfl
    cases hm

end Sys2Proof.Tests
end

/-! ### Proofs: the transaction word's round trips (30_encoding.md R97, R99, R101) and the parameters after reset -/

section

namespace Sys2Proof

/-! #### Operands and their fields of `arg` -/

/-- A pattern of `n` bits, widened to the field `arg`, fits its width. -/
theorem widened_lt {n : Nat} (hn : n ≤ 32) (x : BitVec n) : (x.setWidth 32).toNat < 2 ^ n := by
  rw [toNat_widened hn]
  exact x.isLt

/-- The converse of `signedOperand_ofInt`: an operand field is the pattern of the integer read from it (R101, PERCENT). -/
theorem ofInt_signedOperand {n : Nat} {a : BitVec 32} (ha : a.toNat < 2 ^ n) :
    (BitVec.ofInt n (signedOperand n a)).setWidth 32 = a := by
  rw [signedOperand, BitVec.ofInt_toInt]
  exact (lowBits_eq_iff n a).mpr ha

/-! #### Decoding a made word: one equation per row of R99 -/

theorem decode_make_nop (c : Config) : decode c (TW.make 0x00 false 0) = .ok .nop := by
  simp [decode, noOperand]

theorem decode_make_percent {c : Config} {a : BitVec 32} (ha : a.toNat < 2 ^ c.mvw) :
    decode c (TW.make 0x01 false a) = .ok (.percent (signedOperand c.mvw a)) := by
  simp [decode, lowOperand_of_lt ha, Except.map]

theorem decode_make_feed (c : Config) {a : BitVec 32} (ha : a.toNat < 2 ^ 8) :
    decode c (TW.make 0x02 false a) = .ok (.feed (a.setWidth 8)) := by
  simp [decode, lowOperand_of_lt ha, Except.map]

theorem decode_make_trigger {c : Config} {a : BitVec 32} (ha : a.toNat < 2 ^ c.tsw) :
    decode c (TW.make 0x03 false a) = .ok (.trigger a) := by
  simp [decode, lowOperand_of_lt ha, Except.map]

theorem decode_make_clear (c : Config) : decode c (TW.make 0x04 false 0) = .ok .clear := by
  simp [decode, noOperand]

theorem decode_make_query {c : Config} {a : BitVec 32} (ha : a.toNat < 2 ^ c.tsw) :
    decode c (TW.make 0x05 false a) = .ok (.query a) := by
  simp [decode, lowOperand_of_lt ha, Except.map]

theorem decode_make_tick (c : Config) (lux : Binary32) (m : Bool) :
    decode c (TW.make 0x06 m lux) = .ok (.tick lux m) := by
  simp [decode]

/-! #### The two round trips -/

/-- The timestamp's width needs no bound: its carrier is `arg` itself. -/
theorem decode_encode {c : Config} (hmvw : c.mvw ≤ 32) {i : Instr} (hi : i.fits c = true) :
    decode c (encode c i) = .ok i := by
  cases i with
  | nop => exact decode_make_nop c
  | percent mv =>
    simp only [Instr.fits, Bool.and_eq_true, decide_eq_true_eq] at hi
    obtain ⟨hlow, hhigh⟩ := hi
    rw [encode, decode_make_percent (widened_lt hmvw _), signedOperand_ofInt hmvw hlow hhigh]
  | feed byte =>
    rw [encode, decode_make_feed c (widened_lt (by omega) byte), setWidth_widened (by omega)]
  | trigger now =>
    have hnow : now.toNat < 2 ^ c.tsw := of_decide_eq_true hi
    rw [encode, (lowBits_eq_iff ..).mpr hnow, decode_make_trigger hnow]
  | clear => exact decode_make_clear c
  | query now =>
    have hnow : now.toNat < 2 ^ c.tsw := of_decide_eq_true hi
    rw [encode, (lowBits_eq_iff ..).mpr hnow, decode_make_query hnow]
  | tick lux m => exact decode_make_tick c lux m

/-- What the decoder reads fits, at every width. -/
theorem decode_fits {c : Config} {w : TW} {i : Instr} (h : decode c w = .ok i) : i.fits c = true := by
  obtain ⟨-, ⟨rfl, -⟩ | ⟨rfl, -⟩ | ⟨rfl, -⟩ | ⟨rfl, -, -, ha⟩ | ⟨rfl, -⟩ | ⟨rfl, -, -, ha⟩ | ⟨rfl, -⟩⟩ := decode_ok h
  · rfl
  · obtain ⟨hlow, hhigh⟩ := signedOperand_fits c.mvw w.arg
    exact Bool.and_eq_true_iff.mpr ⟨decide_eq_true hlow, decide_eq_true hhigh⟩
  · rfl
  · exact decide_eq_true ha
  · rfl
  · exact decide_eq_true ha
  · rfl

/-- The word of the operation read is made of the fields of the word it was read from. -/
theorem encode_of_decode {c : Config} {w : TW} {i : Instr} (h : decode c w = .ok i) :
    encode c i = TW.make w.op w.m w.arg := by
  obtain ⟨-, ⟨rfl, hop, hm, ha⟩ | ⟨rfl, hop, hm, ha⟩ | ⟨rfl, hop, hm, ha⟩ | ⟨rfl, hop, hm, ha⟩ | ⟨rfl, hop, hm, ha⟩ |
    ⟨rfl, hop, hm, ha⟩ | ⟨rfl, hop⟩⟩ := decode_ok h
  · rw [hop, hm, ha, encode]
  · rw [hop, hm, encode, ofInt_signedOperand ha]
  · rw [hop, hm, encode, show (w.arg.setWidth 8).setWidth 32 = w.arg from (lowBits_eq_iff 8 _).mpr ha]
  · rw [hop, hm, encode, (lowBits_eq_iff ..).mpr ha]
  · rw [hop, hm, ha, encode]
  · rw [hop, hm, encode, (lowBits_eq_iff ..).mpr ha]
  · rw [hop, encode]

/-- Settles O1, operation by operation: each made word is read by its row, and an operand that fits survives its field. -/
theorem decodeOfEncodeIsTheOperation : Obligations.DecodeOfEncodeIsTheOperation := by
  intro c i hc hi
  simp only [Config.widthsFit, Bool.and_eq_true, decide_eq_true_eq] at hc
  obtain ⟨-, hmvw⟩ := hc
  exact decode_encode hmvw hi

/-- Settles O2: the encoder puts back every field the decoder read, and an accepted word has no other bit, as its `z` is 0. -/
theorem encodeOfDecodeIsTheWord : Obligations.EncodeOfDecodeIsTheWord := by
  intro c w i h
  obtain ⟨hz, -⟩ := decode_ok h
  exact ⟨(encode_of_decode h).trans (make_fields hz), decode_fits h⟩

/-- Settles O12: the reset state carries the column "default" of R13, and the two constants are those of R12. -/
theorem resetStateHasThisHardwaresParameters : Obligations.ResetStateHasThisHardwaresParameters := by
  unfold Obligations.ResetStateHasThisHardwaresParameters
  decide

end Sys2Proof

end

/-! ### Proofs: the legal states (10_state.md R26, R28, R34, R36, R42) -/

section

namespace Sys2Proof.Machine

/-! #### The controller's invariant, one lemma per phase -/

/-- An idle controller at its target is legal, whatever its step start. -/
theorem inv_of_idle {c : Config} {g base start : Byte} {n : Nat} (hn : n ≤ max c.riseSteps c.fallSteps + 1) :
    BcState.Inv c ⟨g, g, base, .idle, n, start⟩ :=
  ⟨fun _ => rfl, nofun, nofun, hn⟩

theorem inv_of_rising {c : Config} {current g base start : Byte} {n : Nat} (hs : start ≤ current) (hg : current ≤ g)
    (h1 : 1 ≤ n) (hn : n ≤ c.riseSteps) : BcState.Inv c ⟨current, g, base, .rising, n, start⟩ :=
  ⟨nofun, fun _ => ⟨hs, hg, h1, hn⟩, nofun, by dsimp only; omega⟩

theorem inv_of_falling {c : Config} {current g base start : Byte} {n : Nat} (hg : g ≤ current) (hs : current ≤ start)
    (h1 : 1 ≤ n) (hn : n ≤ c.fallSteps) : BcState.Inv c ⟨current, g, base, .falling, n, start⟩ :=
  ⟨nofun, nofun, fun _ => ⟨hg, hs, h1, hn⟩, by dsimp only; omega⟩

/-- The rising curve's value survives the register and stays between its start and its target. -/
theorem risingByte_bounds {c : Config} (hc : 1 ≤ c.riseSteps) {start g : Byte} {n : Nat} (hn : n ≤ c.riseSteps)
    (h : start ≤ g) :
    start ≤ BitVec.ofInt 8 (risingValue c start g n) ∧ BitVec.ofInt 8 (risingValue c start g n) ≤ g := by
  obtain ⟨hlow, hhigh⟩ := risingValue_bounds hc hn h
  have hv := ofInt_byte (v := risingValue c start g n) (by omega) (by omega)
  simp only [BitVec.le_def]
  omega

theorem fallingByte_bounds {c : Config} (hc : 1 ≤ c.fallSteps) {start g : Byte} {n : Nat} (hn : n ≤ c.fallSteps)
    (h : g ≤ start) :
    g ≤ BitVec.ofInt 8 (fallingValue c start g n) ∧ BitVec.ofInt 8 (fallingValue c start g n) ≤ start := by
  obtain ⟨hlow, hhigh⟩ := fallingValue_bounds hc hn h
  have hv := ofInt_byte (v := fallingValue c start g n) (by omega) (by omega)
  simp only [BitVec.le_def]
  omega

/-- Where a TICK toward a brighter target takes the curve up: a start not above the brightness, a count of its steps. -/
theorem inv_rising_start {c : Config} {b : BcState} (h : b.Inv c) :
    (if b.phase = .rising then b.stepStart else b.current) ≤ b.current ∧
      (if b.phase = .rising then b.stepCount else 0) ≤ c.riseSteps := by
  obtain ⟨-, hrise, -⟩ := h
  split_ifs with hp
  · obtain ⟨hs, -, -, hn⟩ := hrise hp
    exact ⟨hs, hn⟩
  · exact ⟨BitVec.le_refl _, Nat.zero_le _⟩

theorem inv_falling_start {c : Config} {b : BcState} (h : b.Inv c) :
    b.current ≤ (if b.phase = .falling then b.stepStart else b.current) ∧
      (if b.phase = .falling then b.stepCount else 0) ≤ c.fallSteps := by
  obtain ⟨-, -, hfall, -⟩ := h
  split_ifs with hp
  · obtain ⟨-, hs, -, hn⟩ := hfall hp
    exact ⟨hs, hn⟩
  · exact ⟨BitVec.le_refl _, Nat.zero_le _⟩

/-- TICK keeps the controller's invariant: the curve stays between its ends while its count lasts (R205), and the snap of
R202 leaves the controller idle at its target. -/
theorem tick_keeps_inv {c : Config} (hc : c.wf = true) (lux : Binary32) (m : Bool) {b : BcState} (h : b.Inv c) :
    (b.tick c lux m).Inv c := by
  obtain ⟨hrise, hfall, hriseFits, hfallFits⟩ := wf_steps hc
  obtain hlt | hgt | heq := byte_cases b.current (targetOf (baseOf c lux) m)
  · obtain ⟨hs, hn⟩ := inv_rising_start h
    rw [tick_brighter c lux m b hlt]
    dsimp only
    generalize (if b.phase = .rising then b.stepStart else b.current) = start at *
    generalize (if b.phase = .rising then b.stepCount else 0) = n at *
    split_ifs with hlast
    · obtain ⟨hlow, hhigh⟩ := risingByte_bounds hrise hlast (BitVec.le_trans hs (BitVec.le_of_lt hlt))
      rw [Nat.mod_eq_of_lt (by omega)]
      exact inv_of_rising hlow hhigh (by omega) hlast
    · exact inv_of_idle (le_trans (Nat.mod_le ..) (by omega))
  · obtain ⟨hs, hn⟩ := inv_falling_start h
    rw [tick_darker c lux m b hgt]
    dsimp only
    generalize (if b.phase = .falling then b.stepStart else b.current) = start at *
    generalize (if b.phase = .falling then b.stepCount else 0) = n at *
    split_ifs with hlast
    · obtain ⟨hlow, hhigh⟩ := fallingByte_bounds hfall hlast (BitVec.le_trans (BitVec.le_of_lt hgt) hs)
      rw [Nat.mod_eq_of_lt (by omega)]
      exact inv_of_falling hlow hhigh (by omega) hlast
    · exact inv_of_idle (le_trans (Nat.mod_le ..) (by omega))
  · obtain ⟨-, -, -, hcount⟩ := h
    rw [tick_level c lux m b heq, ← heq]
    exact inv_of_idle hcount

/-! #### Reset, operations and steps -/

/-- The reset values of every unit are legal, at every configuration. -/
theorem reset_values_inv (c : Config) : FdState.reset.Inv ∧ MlState.reset.Inv c ∧ BcState.reset.Inv c :=
  ⟨by decide, Nat.two_pow_pos c.tsw, inv_of_idle (Nat.zero_le _)⟩

/-- Every operation keeps the invariants: each writes its own unit's registers only. -/
theorem exec_keeps_inv {i : Instr} {s t : State} (hs : s.Inv) (h : exec i s = .next t) : t.Inv := by
  obtain ⟨hcfg, hfd, hml, hbc⟩ := hs
  obtain ⟨-, rfl⟩ | ⟨mv, -, rfl⟩ | ⟨b, -, rfl⟩ | ⟨now, -, rfl⟩ | ⟨-, rfl⟩ | ⟨now, -, rfl⟩ | ⟨lux, m, -, rfl⟩ :=
    exec_cases h
  · exact ⟨hcfg, hfd, hml, hbc⟩
  · exact ⟨hcfg, hfd, hml, hbc⟩
  · exact ⟨hcfg, feed_keeps_inv b hfd, hml, hbc⟩
  · exact ⟨hcfg, hfd, set_keeps_inv s.cfg now, hbc⟩
  · exact ⟨hcfg, hfd, hml, hbc⟩
  · exact ⟨hcfg, hfd, expire_keeps_inv now hml, hbc⟩
  · exact ⟨hcfg, hfd, hml, tick_keeps_inv hcfg lux m hbc⟩

/-- Settles O11: the reset state is a literal, and each conjunct reads one of its fields. -/
theorem resetStateHasTheSpecifiedValues : Obligations.ResetStateHasTheSpecifiedValues := by
  unfold Obligations.ResetStateHasTheSpecifiedValues
  decide

/-- Settles O13: this hardware's parameters are well formed, and the reset values are legal at every configuration. -/
theorem resetStateIsLegal : Obligations.ResetStateIsLegal :=
  ⟨by decide, reset_values_inv Config.default⟩

/-- Settles O14: a step is the reset event, which gives legal values, or one operation, which keeps legal values legal; what
is presented plays no part in the invariants. -/
theorem everyStepKeepsTheInvariants : Obligations.EveryStepKeepsTheInvariants := by
  intro s t hs h
  obtain ⟨env, rfl⟩ | ⟨env, i, hi⟩ := step_cases h
  · obtain ⟨hcfg, -⟩ := hs
    exact ⟨hcfg, reset_values_inv s.cfg⟩
  · exact exec_keeps_inv (s := { s with env := env }) hs hi

end Sys2Proof.Machine

end

/-! ### Proofs: what an operation reads and writes (10_state.md R22, R43; 30_encoding.md R99) -/

section

namespace Sys2Proof.Machine

/-- An operation writes no other unit's registers. -/
theorem exec_keeps_other_units {i : Instr} {s t : State} (h : exec i s = .next t) :
    (i.unit ≠ some .fd → t.fd = s.fd) ∧ (i.unit ≠ some .ml → t.ml = s.ml) ∧ (i.unit ≠ some .bc → t.bc = s.bc) := by
  obtain ⟨rfl, rfl⟩ | ⟨mv, rfl, rfl⟩ | ⟨b, rfl, rfl⟩ | ⟨now, rfl, rfl⟩ | ⟨rfl, rfl⟩ | ⟨now, rfl, rfl⟩ |
    ⟨lux, m, rfl, rfl⟩ := exec_cases h
  · exact ⟨fun _ => rfl, fun _ => rfl, fun _ => rfl⟩
  · exact ⟨fun _ => rfl, fun _ => rfl, fun _ => rfl⟩
  · exact ⟨fun hu => absurd rfl hu, fun _ => rfl, fun _ => rfl⟩
  · exact ⟨fun _ => rfl, fun hu => absurd rfl hu, fun _ => rfl⟩
  · exact ⟨fun _ => rfl, fun hu => absurd rfl hu, fun _ => rfl⟩
  · exact ⟨fun _ => rfl, fun hu => absurd rfl hu, fun _ => rfl⟩
  · exact ⟨fun _ => rfl, fun _ => rfl, fun hu => absurd rfl hu⟩

/-- An operation reads no other unit's registers: from states of one configuration that agree on its unit's, it returns one
output and leaves its unit's registers the same. -/
theorem exec_reads_own_unit {i : Instr} {s s' t t' : State} (hcfg : s.cfg = s'.cfg)
    (hfd : i.unit = some .fd → s.fd = s'.fd) (hml : i.unit = some .ml → s.ml = s'.ml)
    (hbc : i.unit = some .bc → s.bc = s'.bc) (h : exec i s = .next t) (h' : exec i s' = .next t') :
    t.out = t'.out ∧ (i.unit = some .fd → t.fd = t'.fd) ∧ (i.unit = some .ml → t.ml = t'.ml) ∧
      (i.unit = some .bc → t.bc = t'.bc) := by
  cases i <;> cases h <;> cases h'
  case nop => exact ⟨rfl, nofun, nofun, nofun⟩
  case percent mv => exact ⟨by simp [hcfg], nofun, nofun, nofun⟩
  case feed b => exact ⟨by simp [hfd rfl], fun _ => by simp [hfd rfl], nofun, nofun⟩
  case trigger now => exact ⟨rfl, nofun, fun _ => by simp [hcfg], nofun⟩
  case clear => exact ⟨rfl, nofun, fun _ => by simp [hml rfl], nofun⟩
  case query now => exact ⟨by simp [hcfg, hml rfl], nofun, fun _ => by simp [hcfg, hml rfl], nofun⟩
  case tick lux m => exact ⟨by simp [hcfg, hbc rfl], nofun, nofun, fun _ => by simp [hcfg, hbc rfl]⟩

/-- Settles O19, from what an operation reads and what it leaves unchanged. -/
theorem unitsShareNoRegisters : Obligations.UnitsShareNoRegisters := by
  intro i s s' hcfg hfd hml hbc
  obtain ⟨t, ht⟩ := exec_next i s
  obtain ⟨t', ht'⟩ := exec_next i s'
  obtain ⟨hout, ownFd, ownMl, ownBc⟩ := exec_reads_own_unit hcfg hfd hml hbc ht ht'
  obtain ⟨otherFd, otherMl, otherBc⟩ := exec_keeps_other_units ht
  obtain ⟨hc, he⟩ := exec_cfg_env ht
  refine ⟨t, t', ht, ht', hout, hc, he, ?_, ?_, ?_⟩
  · split_ifs with hu
    · exact ownFd hu
    · exact otherFd hu
  · split_ifs with hu
    · exact ownMl hu
    · exact otherMl hu
  · split_ifs with hu
    · exact ownBc hu
    · exact otherBc hu

end Sys2Proof.Machine

end

/-! ### Proofs: registers nobody reads (10_state.md R40, R42; 93_implementation_defined.md U4, U10) -/

section

namespace Sys2Proof.Machine

/-- Buffers that agree below the last element are one buffer once that element is stored. -/
theorem set_last_eq_of_agree {u v : Vector Byte 4} (b : Byte) (h : ∀ j : Fin 4, j < 3 → u[j.val] = v[j.val]) :
    u.set 3 b = v.set 3 b := by
  ext j hj : 1
  simp only [Vector.getElem_set]
  split_ifs with h3
  · rfl
  · exact h ⟨j, hj⟩ (Fin.lt_def.mpr (show j < 3 by omega))

/-- Buffers that agree below the index still do once the index has been stored and advanced. -/
theorem set_index_agree {u v : Vector Byte 4} (b : Byte) {i : Fin 4} (hi : i ≠ 3)
    (h : ∀ j : Fin 4, j < i → u[j.val] = v[j.val]) (j : Fin 4) (hj : j < i + 1) :
    (u.set i b)[j.val] = (v.set i b)[j.val] := by
  have below : ∀ i j : Fin 4, i ≠ 3 → j < i + 1 → i.val ≠ j.val → j < i := by decide
  simp only [Vector.getElem_set]
  split_ifs with hij
  · rfl
  · exact h j (below i j hi hj hij)

/-- FEED delivers one frame from decoders that agree, and leaves them agreeing: it reads a buffer element only after it was
written in the frame. -/
theorem feed_agree (byte : Byte) {a b : FdState} (h : a.agree b) :
    (a.feed byte).1.agree (b.feed byte).1 ∧ (a.feed byte).2 = (b.feed byte).2 := by
  obtain ⟨hmode, hidx, hbuf⟩ := h
  cases hm : a.mode with
  | searchingHeader =>
    by_cases hb : byte = Const.header
    · subst hb
      rw [feed_header hm, feed_header (hmode ▸ hm)]
      refine ⟨⟨rfl, rfl, fun _ j hj => ?_⟩, rfl⟩
      obtain rfl : j = 0 := (by decide : ∀ j : Fin 4, j < 1 → j = 0) j hj
      simp
    · rw [feed_other hm hb, feed_other (hmode ▸ hm) hb]
      exact ⟨⟨hmode, hidx, hbuf⟩, rfl⟩
  | accumulatingPayload =>
    have hbuf := hbuf hm
    by_cases hi : a.idx = 3
    · rw [feed_last byte hm hi, feed_last byte (hmode ▸ hm) (hidx ▸ hi), set_last_eq_of_agree byte (hi ▸ hbuf)]
      exact ⟨⟨rfl, rfl, nofun⟩, rfl⟩
    · rw [feed_payload byte hm hi, feed_payload byte (hmode ▸ hm) (hidx ▸ hi)]
      refine ⟨⟨rfl, congrArg (· + 1) hidx, fun _ j hj => ?_⟩, rfl⟩
      simp only [← hidx]
      exact set_index_agree byte hi hbuf j hj

/-- QUERY leaves latches that agree agreeing: it reads the timestamp of an active latch only. -/
theorem expire_agree (c : Config) (now : Timestamp) {a b : MlState} (h : a.agree b) :
    (a.expire c now).agree (b.expire c now) := by
  obtain ⟨hactive, hlast⟩ := h
  cases ha : a.active with
  | false => simp [MlState.agree, expire_active, ← hactive, ha]
  | true =>
    have hab : a = b := by
      cases a
      cases b
      simp_all
    exact hab ▸ ⟨rfl, fun _ => rfl⟩

/-- Controllers that agree take a curve up at one start and one count. -/
theorem curve_start_of_agree {a b : BcState} (h : a.agree b) {p : Phase} (hp : p ≠ .idle) :
    (if a.phase = p then a.stepStart else a.current) = (if b.phase = p then b.stepStart else b.current) ∧
      (if a.phase = p then a.stepCount else 0) = (if b.phase = p then b.stepCount else 0) := by
  obtain ⟨hcur, hphase, hcurve⟩ := h
  rw [← hphase]
  split_ifs with hap
  · obtain ⟨hcount, hstart⟩ := hcurve (hap ▸ hp)
    exact ⟨hstart, hcount⟩
  · exact ⟨hcur, rfl⟩

/-- TICK leaves controllers that agree agreeing: base and target are written before they are read, and the count and start
of an idle controller are read by no TICK. -/
theorem tick_agree (c : Config) (lux : Binary32) (m : Bool) {a b : BcState} (h : a.agree b) :
    (a.tick c lux m).agree (b.tick c lux m) := by
  have ⟨hcur, _⟩ := h
  obtain hlt | hgt | heq := byte_cases a.current (targetOf (baseOf c lux) m)
  · obtain ⟨hstart, hcount⟩ := curve_start_of_agree h (p := .rising) nofun
    rw [tick_brighter c lux m a hlt, tick_brighter c lux m b (hcur ▸ hlt), hstart, hcount]
    exact ⟨rfl, rfl, fun _ => ⟨rfl, rfl⟩⟩
  · obtain ⟨hstart, hcount⟩ := curve_start_of_agree h (p := .falling) nofun
    rw [tick_darker c lux m a hgt, tick_darker c lux m b (hcur ▸ hgt), hstart, hcount]
    exact ⟨rfl, rfl, fun _ => ⟨rfl, rfl⟩⟩
  · rw [tick_level c lux m a heq, tick_level c lux m b (hcur ▸ heq)]
    exact ⟨hcur, rfl, fun hp => absurd rfl hp⟩

/-- Every operation returns one output on states that agree, and leaves them agreeing. -/
theorem exec_agree {i : Instr} {s s' t t' : State} (h : s.agree s') (ht : exec i s = .next t)
    (ht' : exec i s' = .next t') : t.agree t' ∧ t.out = t'.out := by
  obtain ⟨hcfg, hfd, hml, hbc⟩ := h
  cases i <;> cases ht <;> cases ht'
  case nop => exact ⟨⟨hcfg, hfd, hml, hbc⟩, rfl⟩
  case percent mv => exact ⟨⟨hcfg, hfd, hml, hbc⟩, by simp [hcfg]⟩
  case feed b =>
    obtain ⟨hagree, hframe⟩ := feed_agree b hfd
    exact ⟨⟨hcfg, hagree, hml, hbc⟩, congrArg Output.frame hframe⟩
  case trigger now => exact ⟨⟨hcfg, hfd, ⟨rfl, fun _ => by simp [hcfg]⟩, hbc⟩, rfl⟩
  case clear => exact ⟨⟨hcfg, hfd, ⟨rfl, nofun⟩, hbc⟩, rfl⟩
  case query now =>
    have hagree := expire_agree s.cfg now hml
    have ⟨hactive, _⟩ := hagree
    exact ⟨⟨hcfg, hfd, hcfg ▸ hagree, hbc⟩, by simp [← hcfg, hactive]⟩
  case tick lux m =>
    have hagree := tick_agree s.cfg lux m hbc
    have ⟨hcurrent, _⟩ := hagree
    exact ⟨⟨hcfg, hfd, hml, hcfg ▸ hagree⟩, by simp [← hcfg, hcurrent]⟩

/-- Settles O58, by induction on the operations: states that agree stay so, and each operation returns one output. -/
theorem staleRegistersCannotBeObserved : Obligations.StaleRegistersCannotBeObserved := by
  intro ops
  induction ops with
  | nil => exact fun s s' h => ⟨s, s', [], rfl, rfl, h⟩
  | cons i rest ih =>
    intro s s' h
    obtain ⟨v, hv⟩ := exec_next i s
    obtain ⟨v', hv'⟩ := exec_next i s'
    obtain ⟨hagree, hout⟩ := exec_agree h hv hv'
    obtain ⟨t, t', outs, hrun, hrun', hend⟩ := ih v v' hagree
    exact ⟨t, t', v.out :: outs, by simp [runOps_cons hv, hrun], by simp [runOps_cons hv', hrun', hout], hend⟩

end Sys2Proof.Machine

end

/-! ### Proofs: the latch on unbounded time (43_motion_latch.md R171, R175, R178; 70_reset_and_hazards.md R268) -/

section

namespace Sys2Proof.Machine

/-- The simulation: the latch of `TSW` bits holds the clock's reading at the true time of the trigger in force, and is
inactive when none is. -/
def MlState.Tracks (c : Config) (ml : MlState) : Option Nat → Prop
  | none => ml.active = false
  | some time => ml = ⟨true, c.clock time⟩

theorem tracks_active {c : Config} {ml : MlState} {l : Option Nat} (h : ml.Tracks c l) : ml.active = l.isSome := by
  cases l with
  | none => exact h
  | some time => exact congrArg MlState.active h

/-- A TRIGGER stamped with a clock reading is tracked at its true time. -/
theorem set_tracks {c : Config} (hc : c.tsw ≤ 32) (time : Nat) : (MlState.set c (c.clock time)).Tracks c (some time) := by
  have hlow : lowBits c.tsw (c.clock time) = c.clock time :=
    (lowBits_eq_iff ..).mpr (clock_toNat hc time ▸ Nat.mod_lt _ (Nat.two_pow_pos _))
  simp only [MlState.Tracks, MlState.set, hlow]

/-- Before the wrap the elapsed time is the true one. -/
theorem elapsed_of_tracked {c : Config} (hc : c.tsw ≤ 32) {t0 time : Nat} (hle : t0 ≤ time)
    (hwrap : time < t0 + 2 ^ c.tsw) : MlState.elapsed c (c.clock time) ⟨true, c.clock t0⟩ = time - t0 := by
  have h := elapsed_cast c (c.clock time) ⟨true, c.clock t0⟩
  rw [clock_sub hc hle, Nat.mod_eq_of_lt (by omega)] at h
  exact Int.ofNat_inj.mp h

/-- A QUERY before the wrap expires the latch exactly when it expires the latch on unbounded time. -/
theorem expire_tracks {c : Config} (hc : c.tsw ≤ 32) {ml : MlState} {l : Option Nat} {time : Nat} (h : ml.Tracks c l)
    (hle : ∀ t0, l = some t0 → t0 ≤ time) (hwrap : ∀ t0, l = some t0 → time < t0 + 2 ^ c.tsw) :
    (ml.expire c (c.clock time)).Tracks c (l.filter fun t0 => decide (time - t0 ≤ c.motionTimeout)) := by
  cases l with
  | none =>
    have hoff : ml.active = false := h
    simp [MlState.Tracks, expire_active, hoff]
  | some t0 =>
    obtain rfl : ml = ⟨true, c.clock t0⟩ := h
    rw [expire_eq, elapsed_of_tracked hc (hle t0 rfl) (hwrap t0 rfl)]
    by_cases hlate : time - t0 ≤ c.motionTimeout <;> simp [MlState.Tracks, Option.filter, hlate]

/-- The answers of the QUERYs of a run. -/
def RunAnswers (ops : List Instr) (s : State) (bits : List Bool) : Prop :=
  ∃ t outs, runOps ops s = some (t, outs) ∧ outs.filterMap Output.answer = bits

/-- A run's answers are that of its first operation, if it gives one, and those of the rest. -/
theorem runAnswers_cons {i : Instr} {s v : State} {rest : List Instr} {bits : List Bool} (hi : exec i s = .next v)
    (h : RunAnswers rest v bits) : RunAnswers (i :: rest) s (v.out.answer.toList ++ bits) := by
  obtain ⟨t, outs, hrun, rfl⟩ := h
  refine ⟨t, v.out :: outs, by simp [runOps_cons hi, hrun], ?_⟩
  cases hv : v.out.answer <;> simp [hv]

/-- The refinement, from any latch that tracks the one on unbounded time, by induction on the sequence; `latest` bounds the
trigger in force. -/
theorem runAnswers_of_tracks {l : List TimedOp} {s : State} {latch : Option Nat} {latest : Nat}
    (hc : s.cfg.tsw ≤ 32) (htrack : s.ml.Tracks s.cfg latch) (hlatest : ∀ t0, latch = some t0 → t0 ≤ latest)
    (hforward : Duty.timeForward s.cfg latest l) (hwrap : Duty.queriedBeforeWrap s.cfg latch l) :
    RunAnswers (opsOf l) s (Latch.answers s.cfg.motionTimeout latch l) := by
  induction l generalizing s latch latest with
  | nil => exact ⟨s, [], rfl, rfl⟩
  | cons o rest ih =>
    obtain ⟨time, op⟩ := o
    obtain ⟨hstamp, hforward⟩ := hforward
    obtain ⟨hquery, hwrap⟩ := hwrap
    cases op with
    | nop => exact runAnswers_cons (exec_nop s) (ih hc htrack hlatest hforward hwrap)
    | percent mv => exact runAnswers_cons (exec_percent mv s) (ih hc htrack hlatest hforward hwrap)
    | feed b => exact runAnswers_cons (exec_feed b s) (ih hc htrack hlatest hforward hwrap)
    | clear => exact runAnswers_cons (exec_clear s) (ih hc rfl nofun hforward hwrap)
    | tick lux m => exact runAnswers_cons (exec_tick lux m s) (ih hc htrack hlatest hforward hwrap)
    | trigger now =>
      obtain rfl : now = s.cfg.clock time := eq_of_beq hstamp
      obtain ⟨-, hforward⟩ := hforward
      exact runAnswers_cons (exec_trigger _ s)
        (ih hc (set_tracks hc time) (fun t0 ht => (Option.some.inj ht).ge) hforward hwrap)
    | query now =>
      obtain rfl : now = s.cfg.clock time := eq_of_beq hstamp
      obtain ⟨hle, hforward⟩ := hforward
      have htrack' := expire_tracks hc (time := time) htrack (fun t0 ht => (hlatest t0 ht).trans hle)
        (fun t0 ht => by subst ht; exact hquery)
      have h := runAnswers_cons (exec_query _ s)
        (ih hc htrack' (fun t0 ht => hlatest t0 (Option.filter_eq_some_iff.mp ht).1) hforward hwrap)
      rw [deliver_out, tracks_active htrack'] at h
      exact h

/-- Settles O46: an inactive latch tracks the empty latch on unbounded time. -/
theorem latchRefinesUnboundedTime : Obligations.LatchRefinesUnboundedTime := by
  intro l s hwidths hinactive hforward hwrap
  simp only [Config.widthsFit, Bool.and_eq_true, decide_eq_true_eq] at hwidths
  obtain ⟨hc, -⟩ := hwidths
  exact runAnswers_of_tracks hc hinactive nofun hforward hwrap

end Sys2Proof.Machine

end

/-! ### Proofs: the step and what is presented (20_memory.md R70 to R72; 30_encoding.md R97, R99, R100, R104) -/

section

namespace Sys2Proof.Machine

/-! #### What is presented next, and performing it -/

theorem present_onP {s : State} {w : TW} {rest : List Presented} (h : s.env = .onP w :: rest) :
    s.present = (.onP w, { s with env := rest }) := by
  simp only [State.present, h]

theorem present_onT {s : State} {w : TW} {rest : List Presented} (h : s.env = .onT w :: rest) :
    s.present = (.onT w, { s with env := rest }) := by
  simp only [State.present, h]

theorem present_both {s : State} {wP wT : TW} {rest : List Presented} (h : s.env = .both wP wT :: rest) :
    s.present = (.onP wP, { s with env := .onT wT :: rest }) := by
  simp only [State.present, h]

/-- A word that decodes to an operation its channel may carry is performed as that operation. -/
theorem perform_of_decode {s : State} {ch : Channel} {w : TW} {i : Instr} (hw : decode s.cfg w = .ok i)
    (hch : i.legalOn ch = true) : perform ch w s = exec i s := by
  have hon : decodeOn s.cfg ch w = .ok i := by simp only [decodeOn, hw, hch, if_true]
  simp only [perform, hon]

theorem step_onP {s : State} {w : TW} {i : Instr} {rest : List Presented} (henv : s.env = .onP w :: rest)
    (hw : decode s.cfg w = .ok i) : step s = exec i { s with env := rest } := by
  rw [step, present_onP henv]
  exact perform_of_decode hw rfl

theorem step_onT {s : State} {w : TW} {i : Instr} {rest : List Presented} (henv : s.env = .onT w :: rest)
    (hw : decode s.cfg w = .ok i) (hT : i.legalOn .t = true) : step s = exec i { s with env := rest } := by
  rw [step, present_onT henv]
  exact perform_of_decode hw hT

theorem step_both {s : State} {wP wT : TW} {i : Instr} {rest : List Presented} (henv : s.env = .both wP wT :: rest)
    (hw : decode s.cfg wP = .ok i) : step s = exec i { s with env := .onT wT :: rest } := by
  rw [step, present_both henv]
  exact perform_of_decode hw rfl

/-- Settles O7, one case for each way a word is presented. -/
theorem stepPerformsThePresentedOperation : Obligations.StepPerformsThePresentedOperation := by
  intro s w wT i rest hw
  exact ⟨fun henv => step_onP henv hw, fun henv hT => step_onT henv hw hT, fun henv => step_both henv hw⟩

/-! #### A coincidence -/

/-- A decoded TRIGGER stores its operand as given: the operand fits the register. -/
theorem set_of_decode {c : Config} {w : TW} {now : Timestamp} (hw : decode c w = .ok (.trigger now)) :
    MlState.set c now = ⟨true, now⟩ := by
  have hfits : now.toNat < 2 ^ c.tsw := of_decide_eq_true (decode_fits hw)
  rw [MlState.set, (lowBits_eq_iff ..).mpr hfits]

/-- Settles O9: the operation of channel P leaves the configuration and the word of channel T, which the second step reads. -/
theorem coincidencePerformsPThenTrigger : Obligations.CoincidencePerformsPThenTrigger := by
  intro s wP wT i now rest henv hP hT
  obtain ⟨p, hp⟩ := exec_next i { s with env := .onT wT :: rest }
  obtain ⟨hcfg, hleft⟩ := exec_cfg_env hp
  rw [← show p.cfg = s.cfg from hcfg] at hT
  refine ⟨p, hp, (step_both henv hP).trans hp, ?_⟩
  rw [step_onT hleft hT rfl, exec_trigger, set_of_decode hT]
  rfl

/-! #### A trace presented as words -/

/-- A run of operations is its first operation and the run of the rest. -/
theorem runOps_cons_cases {i : Instr} {rest : List Instr} {s t : State} {outs : List Output}
    (h : runOps (i :: rest) s = some (t, outs)) :
    ∃ v outs', exec i s = .next v ∧ runOps rest v = some (t, outs') ∧ outs = v.out :: outs' := by
  obtain ⟨v, hv⟩ := exec_next i s
  rw [runOps_cons hv] at h
  obtain ⟨⟨u, outs'⟩, hr, heq⟩ := Option.map_eq_some_iff.mp h
  cases heq
  exact ⟨v, outs', hv, hr, rfl⟩

/-- What is presented plays no part in a run of operations. -/
theorem runOps_env (env : List Presented) {ops : List Instr} {s t : State} {outs : List Output}
    (h : runOps ops s = some (t, outs)) :
    runOps ops { s with env := env } = some ({ t with env := env }, outs) := by
  induction ops generalizing s outs with
  | nil => cases h; rfl
  | cons i rest ih =>
    obtain ⟨v, outs', hv, hr, rfl⟩ := runOps_cons_cases h
    rw [runOps_cons (exec_env i s env hv), ih hr]
    rfl

/-- A trace whose lines are legal on their channels holds exactly when its outputs are those of the run (R104). -/
theorem traceHolds_iff {l : List TraceLine} {s t : State} {outs : List Output}
    (hl : ∀ x ∈ l, x.op.legalOn x.channel = true) (h : runOps (l.map TraceLine.op) s = some (t, outs)) :
    traceHolds l s = true ↔ outs = l.map TraceLine.out := by
  induction l generalizing s outs with
  | nil => cases h; exact ⟨fun _ => rfl, fun _ => rfl⟩
  | cons x l ih =>
    obtain ⟨hx, hl⟩ := List.forall_mem_cons.mp hl
    obtain ⟨v, outs', hv, hr, rfl⟩ := runOps_cons_cases h
    simp [traceHolds, hv, hx, ih hl hr]

/-- A step performs the operation of the line whose word is presented next. -/
theorem step_presented {c : Config} {s t : State} {x : TraceLine} {rest : List Presented} (hmvw : c.mvw ≤ 32)
    (hcfg : s.cfg = c) (hlegal : x.op.legalOn x.channel = true) (hfits : x.op.fits c = true)
    (henv : s.env = x.presented c :: rest) (h : exec x.op s = .next t) : step s = .next { t with env := rest } := by
  subst hcfg
  have hw := decode_encode hmvw hfits
  rw [← exec_env x.op s rest h]
  obtain ⟨channel, op, out⟩ := x
  cases channel with
  | p => exact step_onP henv hw
  | t => exact step_onT henv hw hlegal

/-- The steps over a presented trace run its operations (R71, R273). -/
theorem core_run_presented {c : Config} {l : List TraceLine} {s t : State} {rest : List Presented} {outs : List Output}
    (hmvw : c.mvw ≤ 32) (hl : ∀ x ∈ l, x.op.legalOn x.channel = true ∧ x.op.fits c = true) (hcfg : s.cfg = c)
    (henv : s.env = l.map (TraceLine.presented c) ++ rest) (h : runOps (l.map TraceLine.op) s = some (t, outs)) :
    Host.Core.run Sys2Proof.core l.length s = .next { t with env := rest } := by
  induction l generalizing s t outs with
  | nil =>
    cases h
    rw [← show s.env = rest from henv]
    exact core_run_zero s
  | cons x l ih =>
    obtain ⟨⟨hlegal, hfits⟩, hl⟩ := List.forall_mem_cons.mp hl
    obtain ⟨v, _, hv, hr, -⟩ := runOps_cons_cases h
    obtain ⟨hcfgV, -⟩ := exec_cfg_env hv
    rw [List.length_cons, core_run_succ _ (step_presented hmvw hcfg hlegal hfits henv hv)]
    exact ih (s := { v with env := l.map (TraceLine.presented c) ++ rest })
      (t := { t with env := l.map (TraceLine.presented c) ++ rest }) hl (hcfgV.trans hcfg) rfl (runOps_env _ hr)

/-- Settles O17: the operations have one run whatever is presented; the steps over their words take it, and the trace holds
exactly when its outputs are that run's. -/
theorem presentedTraceRunsTopToBottom : Obligations.PresentedTraceRunsTopToBottom := by
  intro l s rest hwidths hl henv
  simp only [Config.widthsFit, Bool.and_eq_true, decide_eq_true_eq] at hwidths
  obtain ⟨-, hmvw⟩ := hwidths
  obtain ⟨t, outs, hrun, -⟩ := runOps_total (l.map TraceLine.op) s
  have hlegal : ∀ x ∈ l, x.op.legalOn x.channel = true := fun x hx => (hl x hx).left
  exact ⟨_, outs, runOps_env rest hrun, core_run_presented hmvw hl rfl henv hrun, traceHolds_iff hlegal hrun⟩

end Sys2Proof.Machine

end

/-! ### Proofs: orders and repetitions of operations (20_memory.md R66, R73, R76; 44_brightness_controller.md R208) -/

section

namespace Sys2Proof.Machine

/-! #### Operations on different units -/

/-- An operation does the same after an operation on another unit as without it: that one wrote nothing it reads. -/
theorem exec_after_other_unit {i j : Instr} (hu : i.unit ≠ j.unit) {s a b c : State} (ha : exec i s = .next a)
    (hb : exec j a = .next b) (hc : exec j s = .next c) :
    b.out = c.out ∧ (j.unit = some .fd → b.fd = c.fd) ∧ (j.unit = some .ml → b.ml = c.ml) ∧
      (j.unit = some .bc → b.bc = c.bc) := by
  obtain ⟨hcfg, -⟩ := exec_cfg_env ha
  obtain ⟨hfd, hml, hbc⟩ := exec_keeps_other_units ha
  exact exec_reads_own_unit hcfg (fun hj => hfd (hj ▸ hu)) (fun hj => hml (hj ▸ hu)) (fun hj => hbc (hj ▸ hu)) hb hc

/-- One register of R76's argument: with `i` and `j` on different units, at most one of them owns the register. Its values
are `xs` at the start, `xa` after `i`, `xb` after `i` and `j`, `xc` after `j`, `xd` after `j` and `i`. -/
theorem register_same_in_both_orders {α : Type} {u : Unit4} {i j : Instr} (hu : i.unit ≠ j.unit) {xs xa xb xc xd : α}
    (keepA : i.unit ≠ some u → xa = xs) (keepB : j.unit ≠ some u → xb = xa)
    (keepC : j.unit ≠ some u → xc = xs) (keepD : i.unit ≠ some u → xd = xc)
    (ownB : j.unit = some u → xb = xc) (ownD : i.unit = some u → xd = xa) : xb = xd := by
  by_cases hi : i.unit = some u
  · rw [keepB fun hj => hu (hi.trans hj.symm), ownD hi]
  · by_cases hj : j.unit = some u
    · rw [ownB hj, keepD hi]
    · rw [keepB hj, keepA hi, keepD hi, keepC hj]

/-- Settles O20: each operation returns and writes the same in both orders, and no register has two owners. -/
theorem operationsOnDifferentUnitsCommute : Obligations.OperationsOnDifferentUnitsCommute := by
  intro i j s hu
  obtain ⟨a, ha⟩ := exec_next i s
  obtain ⟨b, hb⟩ := exec_next j a
  obtain ⟨c, hc⟩ := exec_next j s
  obtain ⟨d, hd⟩ := exec_next i c
  obtain ⟨keepAFd, keepAMl, keepABc⟩ := exec_keeps_other_units ha
  obtain ⟨keepBFd, keepBMl, keepBBc⟩ := exec_keeps_other_units hb
  obtain ⟨keepCFd, keepCMl, keepCBc⟩ := exec_keeps_other_units hc
  obtain ⟨keepDFd, keepDMl, keepDBc⟩ := exec_keeps_other_units hd
  obtain ⟨outB, ownBFd, ownBMl, ownBBc⟩ := exec_after_other_unit hu ha hb hc
  obtain ⟨outD, ownDFd, ownDMl, ownDBc⟩ := exec_after_other_unit hu.symm hc hd ha
  exact ⟨a, b, c, d, ha, hb, hc, hd,
    ⟨register_same_in_both_orders hu keepAFd keepBFd keepCFd keepDFd ownBFd ownDFd,
      register_same_in_both_orders hu keepAMl keepBMl keepCMl keepDMl ownBMl ownDMl,
      register_same_in_both_orders hu keepABc keepBBc keepCBc keepDBc ownBBc ownDBc⟩,
    outD.symm, outB⟩

/-! #### The same operation again -/

/-- A second expiry at the same time finds the same timestamp and changes nothing. -/
theorem expire_expire (c : Config) (now : Timestamp) (ml : MlState) :
    (ml.expire c now).expire c now = ml.expire c now := by
  have helapsed : (ml.expire c now).elapsed c now = ml.elapsed c now := by simp only [MlState.elapsed, expire_last]
  rw [expire_eq c now (ml.expire c now), helapsed, expire_active, expire_last, Bool.and_assoc, Bool.and_self, ← expire_eq]

/-- A TICK that leaves the controller idle leaves it at the target. -/
theorem tick_current_of_idle {c : Config} {lux : Binary32} {m : Bool} {b : BcState}
    (h : (b.tick c lux m).phase = .idle) : (b.tick c lux m).current = targetOf (baseOf c lux) m := by
  obtain hlt | hgt | heq := byte_cases b.current (targetOf (baseOf c lux) m)
  · rw [tick_brighter c lux m b hlt] at h ⊢
    dsimp only at h ⊢
    split_ifs at h ⊢ <;> rfl
  · rw [tick_darker c lux m b hgt] at h ⊢
    dsimp only at h ⊢
    split_ifs at h ⊢ <;> rfl
  · rw [tick_level c lux m b heq]
    exact heq

/-- Once idle, a second TICK with the same operands changes nothing (R208 (b)). -/
theorem tick_tick_of_idle {c : Config} {lux : Binary32} {m : Bool} {b : BcState}
    (h : (b.tick c lux m).phase = .idle) : (b.tick c lux m).tick c lux m = b.tick c lux m := by
  obtain ⟨hbase, htarget⟩ := tick_base_target c lux m b
  rw [tick_level c lux m _ (tick_current_of_idle h), ← htarget, ← hbase, ← h]

/-- Settles O44: CLEAR and TRIGGER write values that do not depend on what they wrote, and QUERY's expiry and an idle TICK
change nothing the second time. -/
theorem repeatedOperationsChangeNothing : Obligations.RepeatedOperationsChangeNothing := by
  refine ⟨?query, ?clear, ?trigger, ?tick⟩
  case query =>
    intro now s t h
    cases h
    simp only [exec_query, deliver_cfg, setMl_cfg, deliver_ml, setMl_ml, expire_expire]
    rfl
  case clear =>
    intro s t h
    cases h
    rfl
  case trigger =>
    intro now s t h
    cases h
    rfl
  case tick =>
    intro lux m s t h hidle
    cases h
    simp only [exec_tick, deliver_cfg, setBc_cfg, deliver_bc, setBc_bc, tick_tick_of_idle hidle]
    rfl

/-! #### A trigger in force -/

/-- A QUERY that is not late leaves a trigger in force. -/
theorem expire_set_of_not_late {c : Config} {now n : Timestamp}
    (h : ((n.toNat : Int) - now.toNat) % 2 ^ c.tsw ≤ c.motionTimeout) :
    (MlState.set c now).expire c n = MlState.set c now := by
  rw [← elapsed_set, Int.ofNat_le] at h
  rw [expire_eq, set_active, decide_eq_true h]
  rfl

/-- The latch holds the trigger of `now` (R170), at the configuration `c`. -/
def State.HoldsTrigger (c : Config) (now : Timestamp) (s : State) : Prop :=
  s.cfg = c ∧ s.ml = MlState.set c now

/-- A TRIGGER is held straight after it. -/
theorem trigger_holdsTrigger {now : Timestamp} {s t : State} (h : exec (.trigger now) s = .next t) :
    t.HoldsTrigger s.cfg now := by
  cases h
  exact ⟨rfl, rfl⟩

/-- An operation other than TRIGGER, CLEAR and a late QUERY keeps a trigger held. -/
theorem exec_keeps_trigger {c : Config} {now : Timestamp} {i : Instr} {s t : State} (hclear : i ≠ .clear)
    (htrigger : ∀ n, i ≠ .trigger n)
    (hquery : ∀ n, i = .query n → ((n.toNat : Int) - now.toNat) % 2 ^ c.tsw ≤ c.motionTimeout)
    (hs : s.HoldsTrigger c now) (h : exec i s = .next t) : t.HoldsTrigger c now := by
  obtain ⟨rfl, hset⟩ := hs
  obtain ⟨hcfg, -⟩ := exec_cfg_env h
  obtain ⟨-, hml, -⟩ := exec_keeps_other_units h
  refine ⟨hcfg, ?_⟩
  cases i with
  | nop => exact (hml nofun).trans hset
  | percent mv => exact (hml nofun).trans hset
  | feed b => exact (hml nofun).trans hset
  | trigger n => exact absurd rfl (htrigger n)
  | clear => exact absurd rfl hclear
  | query n =>
    cases h
    rw [deliver_ml, setMl_ml, hset]
    exact expire_set_of_not_late (hquery n rfl)
  | tick lux m => exact (hml nofun).trans hset

/-- Settles O45: the trigger is held after TRIGGER, and each of the operations keeps it held. -/
theorem triggerHoldsUntilClearOrLateQuery : Obligations.TriggerHoldsUntilClearOrLateQuery := by
  intro now ops s hops
  obtain ⟨t, outs, hrun, -⟩ := runOps_total (.trigger now :: ops) s
  obtain ⟨v, _, hv, hrest, -⟩ := runOps_cons_cases hrun
  have keeps : ∀ i ∈ ops, ∀ u u' : State, u.HoldsTrigger s.cfg now → exec i u = .next u' →
      u'.HoldsTrigger s.cfg now := by
    intro i hi u u' hu h
    obtain ⟨hclear, htrigger, hquery⟩ := hops i hi
    exact exec_keeps_trigger hclear htrigger hquery hu h
  obtain ⟨-, hml⟩ := runOps_invariant keeps (trigger_holdsTrigger hv) hrest
  refine ⟨t, outs, hrun, ?_, ?_⟩
  · rw [hml, set_active]
  · rw [hml, set_last, lowBits_toNat]

end Sys2Proof.Machine

end

/-! ### Proofs: reserved words, operands and the opcode table (30_encoding.md R97 to R103) -/

section

namespace Sys2Proof

/-! #### The words the decoder accepts (R103) -/

/-- R103's numbers are those of the word's fields. -/
theorem reservedByFields_iff (c : Config) (w : TW) :
    reservedByFields c w ↔ 7 ≤ w.op.toNat ∨ w.z ≠ 0 ∨ (w.m = true ∧ w.op ≠ 6) ∨
      ((w.op = 0 ∨ w.op = 4) ∧ w.arg ≠ 0) ∨ (w.op = 1 ∧ 2 ^ c.mvw ≤ w.arg.toNat) ∨
      (w.op = 2 ∧ 2 ^ 8 ≤ w.arg.toNat) ∨ ((w.op = 3 ∨ w.op = 5) ∧ 2 ^ c.tsw ≤ w.arg.toNat) := by
  have hfeed : w.arg.toNat / 2 ^ 8 ≠ 0 ↔ 2 ^ 8 ≤ w.arg.toNat := by omega
  simp only [reservedByFields, bitsOf_high w (k := 8) (by omega), ← op_toNat, ← z_toNat, ← arg_toNat, ← m_iff, hfeed,
    ← BitVec.toNat_inj, ne_eq]
  rfl

/-- No row of R99 reads a reserved word. -/
theorem not_reserved_of_decode {c : Config} {w : TW} {i : Instr} (h : decode c w = .ok i) : ¬ reservedByFields c w := by
  rw [reservedByFields_iff]
  obtain ⟨hz, ⟨-, hop, hm, ha⟩ | ⟨-, hop, hm, ha⟩ | ⟨-, hop, hm, ha⟩ | ⟨-, hop, hm, ha⟩ | ⟨-, hop, hm, ha⟩ |
    ⟨-, hop, hm, ha⟩ | ⟨-, hop⟩⟩ := decode_ok h
  · simp [hz, hop, hm, ha]
  · simp [hz, hop, hm, ha]
  · simpa [hz, hop, hm] using ha
  · simp [hz, hop, hm, ha]
  · simp [hz, hop, hm, ha]
  · simp [hz, hop, hm, ha]
  · simp [hz, hop]

/-- The `op` values of R99. -/
theorem byte_lt_seven {b : Byte} (h : b.toNat < 7) : b = 0 ∨ b = 1 ∨ b = 2 ∨ b = 3 ∨ b = 4 ∨ b = 5 ∨ b = 6 := by
  bv_omega

/-- A word that is not reserved is made of its `op`, `m` and `arg`, and the row of its `op` reads it. -/
theorem decode_of_not_reserved {c : Config} {w : TW} (h : ¬ reservedByFields c w) : ∃ i, decode c w = .ok i := by
  rw [reservedByFields_iff] at h
  push Not at h
  obtain ⟨hop, hz, hm, hnone, hpercent, hfeed, htime⟩ := h
  have hm : w.op ≠ 6 → w.m = false := fun h6 => Bool.eq_false_iff.mpr fun h => h6 (hm h)
  rw [← make_fields hz]
  obtain h | h | h | h | h | h | h := byte_lt_seven hop
  · rw [h, hm (by simp [h]), hnone (.inl h)]
    exact ⟨_, decode_make_nop c⟩
  · rw [h, hm (by simp [h])]
    exact ⟨_, decode_make_percent (hpercent h)⟩
  · rw [h, hm (by simp [h])]
    exact ⟨_, decode_make_feed c (hfeed h)⟩
  · rw [h, hm (by simp [h])]
    exact ⟨_, decode_make_trigger (htime (.inl h))⟩
  · rw [h, hm (by simp [h]), hnone (.inr h)]
    exact ⟨_, decode_make_clear c⟩
  · rw [h, hm (by simp [h])]
    exact ⟨_, decode_make_query (htime (.inr h))⟩
  · rw [h]
    exact ⟨_, decode_make_tick c w.arg w.m⟩

theorem decode_ok_iff_not_reserved (c : Config) (w : TW) : (∃ i, decode c w = .ok i) ↔ ¬ reservedByFields c w :=
  ⟨fun ⟨_, h⟩ => not_reserved_of_decode h, decode_of_not_reserved⟩

/-- A channel accepts a word exactly when it is an operation's and the channel may carry the operation (R100). -/
theorem decodeOn_ok_iff {c : Config} {ch : Channel} {w : TW} {i : Instr} :
    decodeOn c ch w = .ok i ↔ decode c w = .ok i ∧ i.legalOn ch = true := by
  unfold decodeOn
  cases decode c w with
  | error e => simp
  | ok j =>
    by_cases hj : j.legalOn ch = true
    · simp only [hj, if_true, Except.ok.injEq, iff_self_and]
      rintro rfl
      exact hj
    · simp only [hj, Bool.false_eq_true, if_false, reduceCtorEq, Except.ok.injEq, false_iff]
      rintro ⟨rfl, h⟩
      exact hj h

/-- Channel T may carry the operations of TRIGGER's row alone. -/
theorem legalOn_t_iff_op {c : Config} {w : TW} {i : Instr} (h : decode c w = .ok i) :
    i.legalOn .t = true ↔ bitsOf w 47 40 = 3 := by
  rw [← op_toNat]
  obtain ⟨-, ⟨rfl, hop, -⟩ | ⟨rfl, hop, -⟩ | ⟨rfl, hop, -⟩ | ⟨rfl, hop, -⟩ | ⟨rfl, hop, -⟩ | ⟨rfl, hop, -⟩ | ⟨rfl, hop⟩⟩ :=
    decode_ok h <;> simp [hop, Instr.legalOn]

theorem decodeOn_p_ok_iff (c : Config) (w : TW) : (∃ i, decodeOn c .p w = .ok i) ↔ ¬ reservedByFields c w := by
  simp only [decodeOn_ok_iff, Instr.legalOn, and_true, decode_ok_iff_not_reserved]

theorem decodeOn_t_ok_iff (c : Config) (w : TW) :
    (∃ i, decodeOn c .t w = .ok i) ↔ ¬ (reservedByFields c w ∨ bitsOf w 47 40 ≠ 3) := by
  rw [not_or, not_not, ← decode_ok_iff_not_reserved]
  constructor
  · rintro ⟨i, hi⟩
    obtain ⟨hw, ht⟩ := decodeOn_ok_iff.mp hi
    exact ⟨⟨i, hw⟩, (legalOn_t_iff_op hw).mp ht⟩
  · rintro ⟨⟨i, hw⟩, hop⟩
    exact ⟨i, decodeOn_ok_iff.mpr ⟨hw, (legalOn_t_iff_op hw).mpr hop⟩⟩

namespace Machine

/-- Performing a word is refused exactly when its channel accepts no operation from it: no operation is refused. -/
theorem perform_refused_iff (ch : Channel) (w : TW) (s : State) :
    (∃ e, perform ch w s = .refused (.reservedWord e)) ↔ ¬ ∃ i, decodeOn s.cfg ch w = .ok i := by
  unfold perform
  cases decodeOn s.cfg ch w with
  | error e => simp
  | ok i =>
    obtain ⟨t, ht⟩ := exec_next i s
    simp [ht]

/-- Settles O3: a step refuses a word exactly when its channel accepts no operation from it. -/
theorem reservedWordsAndNoOthersAreRefused : Obligations.ReservedWordsAndNoOthersAreRefused := by
  intro s w rest
  refine ⟨fun henv => ?_, fun henv => ?_⟩
  · rw [step, present_onP henv]
    exact (perform_refused_iff ..).trans (not_iff_comm.mp (decodeOn_p_ok_iff s.cfg w).symm)
  · rw [step, present_onT henv]
    exact (perform_refused_iff ..).trans (not_iff_comm.mp (decodeOn_t_ok_iff s.cfg w).symm)

end Machine

/-! #### Where an operand comes from (R101) -/

/-- `sext` of a field whose bits above the width are 0. -/
theorem signedOperand_of_lt {n : Nat} {a : BitVec 32} (ha : a.toNat < 2 ^ n) :
    signedOperand n a = if 2 * a.toNat < 2 ^ n then (a.toNat : Int) else a.toNat - 2 ^ n := by
  rw [signedOperand, BitVec.toInt_eq_toNat_cond, BitVec.toNat_setWidth, Nat.mod_eq_of_lt ha]
  push_cast
  rfl

/-- `sext` of `arg[15:0]`, in the rule's own bit numbers. -/
theorem signedOperand_sixteen {w : TW} (ha : w.arg.toNat < 2 ^ 16) :
    bitsOf w 31 16 = 0 ∧
      signedOperand 16 w.arg =
        if bitsOf w 15 0 < 2 ^ 15 then (bitsOf w 15 0 : Int) else bitsOf w 15 0 - 2 ^ 16 := by
  rw [bitsOf_high w (by omega), bitsOf_low w (by omega), signedOperand_of_lt ha, Nat.mod_eq_of_lt ha]
  refine ⟨Nat.div_eq_of_lt ha, if_congr (by omega) rfl rfl⟩

/-- Settles O4, one clause for each kind of operand the decoder reads. -/
theorem operandsAreAssembledFromTheirBits : Obligations.OperandsAreAssembledFromTheirBits := by
  intro c w
  refine ⟨?percent, ?feed, ?timestamp, ?none, ?tick⟩
  case percent =>
    intro mv h
    obtain ⟨-, h⟩ := decode_ok h
    simp only [reduceCtorEq, Instr.percent.injEq, false_and, false_or, or_false] at h
    obtain ⟨rfl, -, -, ha⟩ := h
    rw [← arg_toNat]
    refine ⟨ha, signedOperand_of_lt ha, fun h16 => ?_⟩
    rw [h16] at ha ⊢
    exact signedOperand_sixteen ha
  case feed =>
    intro b h
    obtain ⟨-, h⟩ := decode_ok h
    simp only [reduceCtorEq, Instr.feed.injEq, false_and, false_or, or_false] at h
    obtain ⟨rfl, -, -, ha⟩ := h
    rw [bitsOf_low w (by omega), bitsOf_high w (by omega), BitVec.toNat_setWidth]
    exact ⟨rfl, Nat.div_eq_of_lt ha⟩
  case timestamp =>
    rintro now (h | h)
    all_goals
      obtain ⟨-, h⟩ := decode_ok h
      simp only [reduceCtorEq, Instr.trigger.injEq, Instr.query.injEq, false_and, false_or, or_false] at h
      obtain ⟨rfl, -, -, ha⟩ := h
      rw [← arg_toNat]
      exact ⟨rfl, ha⟩
  case none =>
    rintro (h | h)
    all_goals
      obtain ⟨-, h⟩ := decode_ok h
      simp only [reduceCtorEq, true_and, false_and, false_or, or_false] at h
      obtain ⟨-, -, ha⟩ := h
      rw [← arg_toNat, ha]
      rfl
  case tick =>
    intro lux m h
    obtain ⟨-, h⟩ := decode_ok h
    simp only [reduceCtorEq, Instr.tick.injEq, false_and, false_or] at h
    obtain ⟨⟨rfl, rfl⟩, -⟩ := h
    exact ⟨arg_toNat w, m_iff w⟩

/-! #### The rows of the opcode table (R99) -/

/-- A mask acts on each field by itself. -/
theorem op_and (w v : TW) : (w &&& v).op = w.op &&& v.op := BitVec.extractLsb'_and ..
theorem z_and (w v : TW) : (w &&& v).z = w.z &&& v.z := BitVec.extractLsb'_and ..
theorem m_and (w v : TW) : (w &&& v).m = (w.m && v.m) := BitVec.getLsbD_and ..
theorem arg_and (w v : TW) : (w &&& v).arg = w.arg &&& v.arg := BitVec.extractLsb'_and ..

/-- The family TableRow for every operation. -/
theorem encode_matches_row (i : Instr) : encode Config.default i &&& i.tableMask = i.tableMatch := by
  cases i with
  | nop => exact Laws.TableRow.nop
  | percent mv => exact Laws.TableRow.percent mv
  | feed byte => exact Laws.TableRow.feed byte
  | trigger now => exact Laws.TableRow.trigger now
  | clear => exact Laws.TableRow.clear
  | query now => exact Laws.TableRow.query now
  | tick lux m => exact Laws.TableRow.tick lux m

/-- The word an operation was read from is the encoder's word, which matches the operation's row. -/
theorem row_of_decode {w : TW} {i : Instr} (h : decode Config.default w = .ok i) : w &&& i.tableMask = i.tableMatch := by
  obtain ⟨hz, -⟩ := decode_ok h
  rw [← encode_matches_row i, encode_of_decode h, make_fields hz]

/-- The `op` of an operation's row. -/
@[simp] def Instr.rowOp : Instr → Byte
  | .nop => 0
  | .percent _ => 1
  | .feed _ => 2
  | .trigger _ => 3
  | .clear => 4
  | .query _ => 5
  | .tick _ _ => 6

/-- How many low bits of `arg` an operation's row leaves to the operand. -/
@[simp] def Instr.rowWidth : Instr → Nat
  | .nop => 0
  | .percent _ => 16
  | .feed _ => 8
  | .trigger _ => 32
  | .clear => 0
  | .query _ => 32
  | .tick _ _ => 32

/-- A row's match is its `op` and nothing else. -/
theorem tableMatch_eq_make (i : Instr) : i.tableMatch = TW.make i.rowOp false 0 := by
  cases i <;> simp only [Instr.tableMatch, Instr.rowOp] <;> decide

/-- A row's mask covers `op`, `z`, the bits of `arg` above the operand and, but for TICK, `m`. -/
theorem tableMask_fields (i : Instr) :
    i.tableMask.op = BitVec.allOnes 8 ∧ i.tableMask.z = BitVec.allOnes 7 ∧ (i.rowOp ≠ 6 → i.tableMask.m = true) ∧
      i.tableMask.arg = BitVec.allOnes 32 <<< i.rowWidth := by
  cases i <;> simp only [Instr.tableMask, Instr.rowOp, Instr.rowWidth] <;> decide

/-- A number with no bit at `n` or above is below `2^n`. -/
theorem toNat_lt_of_and_high {v n : Nat} {a : BitVec v} (h : a &&& BitVec.allOnes v <<< n = 0) : a.toNat < 2 ^ n := by
  refine Nat.lt_pow_two_of_testBit _ fun k hk => ?_
  by_cases hkv : k < v
  · have hbit : (a &&& BitVec.allOnes v <<< n).getLsbD k = (0#v).getLsbD k := congrArg (·.getLsbD k) h
    rw [BitVec.getLsbD_and, BitVec.getLsbD_shiftLeft, BitVec.getLsbD_allOnes, BitVec.getLsbD_zero] at hbit
    have hkn : k - n < v := Nat.sub_lt_of_lt hkv
    simp only [hkv, hkn, Nat.not_lt.mpr hk, decide_true, decide_false, Bool.not_false, Bool.and_true] at hbit
    exact hbit
  · exact BitVec.getLsbD_of_ge a k (Nat.le_of_not_lt hkv)

/-- What a row's match under its mask says of a word's fields. -/
theorem fields_of_row {w : TW} {i : Instr} (h : w &&& i.tableMask = i.tableMatch) :
    w.op = i.rowOp ∧ w.z = 0 ∧ (i.rowOp ≠ 6 → w.m = false) ∧ w.arg.toNat < 2 ^ i.rowWidth := by
  obtain ⟨hop, hz, hm, harg⟩ := tableMask_fields i
  rw [tableMatch_eq_make] at h
  refine ⟨?op, ?z, fun h6 => ?m, toNat_lt_of_and_high ?arg⟩
  case op => rw [← op_make i.rowOp false 0, ← h, op_and, hop, BitVec.and_allOnes]
  case z => rw [← z_make i.rowOp false 0, ← h, z_and, hz, BitVec.and_allOnes]
  case m => rw [← m_make i.rowOp false 0, ← h, m_and, hm h6, Bool.and_true]
  case arg => rw [← harg, ← arg_and, h, arg_make]

/-- A word that matches a row is not reserved. -/
theorem not_reserved_of_row {w : TW} {j : Instr} (h : w &&& j.tableMask = j.tableMatch) :
    ¬ reservedByFields Config.default w := by
  obtain ⟨hop, hz, hm, ha⟩ := fields_of_row h
  have hzero : w.arg.toNat < 2 ^ 0 → w.arg = 0 := fun h => BitVec.eq_of_toNat_eq (Nat.lt_one_iff.mp h)
  rw [reservedByFields_iff, hz, hop]
  cases j with
  | nop => simp [hm nofun, hzero ha]
  | percent mv => simpa [hm nofun, Config.default] using ha
  | feed byte => simpa [hm nofun] using ha
  | trigger now => simpa [hm nofun, Config.default] using ha
  | clear => simp [hm nofun, hzero ha]
  | query now => simpa [hm nofun, Config.default] using ha
  | tick lux m => simp

/-- Settles O5: a decoded word is the encoder's word, which matches the row; a word that matches a row is not reserved, and
its `op` names the row of the operation read. -/
theorem decoderAgreesWithTheOpcodeTable : Obligations.DecoderAgreesWithTheOpcodeTable := by
  refine fun w => ⟨fun i => row_of_decode, fun j hj => ?_⟩
  obtain ⟨i, hi⟩ := decode_of_not_reserved (not_reserved_of_row hj)
  obtain ⟨hopJ, -⟩ := fields_of_row hj
  obtain ⟨hopI, -⟩ := fields_of_row (row_of_decode hi)
  refine ⟨i, hi, ?_⟩
  rw [tableMatch_eq_make i, tableMatch_eq_make j, ← hopI, ← hopJ]

/-- Settles O6: eight closed words, each evaluated by the decoder. -/
theorem wordsWrittenInTheSpecDecode : Obligations.WordsWrittenInTheSpecDecode := by
  unfold Obligations.WordsWrittenInTheSpecDecode
  decide

end Sys2Proof

end

/-! ### Proofs: an instant at which nothing is presented (30_encoding.md R99, 42_frame_decoder.md R150) -/

section

namespace Sys2Proof.Machine

theorem present_nil {s : State} (h : s.env = []) : s.present = (.nothing, s) := by
  simp only [State.present, h]

theorem present_nothing {s : State} {rest : List Presented} (h : s.env = .nothing :: rest) :
    s.present = (.nothing, { s with env := rest }) := by
  simp only [State.present, h]

/-- Settles O8: either way the step is NOP's, on the state with what is left to present. -/
theorem stepWithNothingPresentedIsNop : Obligations.StepWithNothingPresentedIsNop := by
  refine fun s rest => ⟨fun henv => ?_, fun henv => ?_⟩
  · rw [step, present_nil henv]
    exact exec_nop s
  · rw [step, present_nothing henv]
    exact exec_nop { s with env := rest }

end Sys2Proof.Machine

end

/-! ### Proofs: the checksum of a frame (30_encoding.md R93) -/

section

namespace Sys2Proof.Machine

/-- R93 with its mask as a remainder. -/
theorem frameValid_iff (buf : Vector Byte 4) :
    frameValid buf = true ↔ buf[3].toNat = (buf[0].toNat + buf[1].toNat + buf[2].toNat) % 128 := by
  rw [frameValid, beq_iff_eq, Const.checksumMask, show 0x7F = 2 ^ 7 - 1 from rfl, Nat.and_two_pow_sub_one_eq_mod]

/-- The FEED that completes a group delivers a frame, or none, by the remainder of the sum of its first three bytes. -/
theorem feed_last_frame {fd : FdState} (b : Byte) (hmode : fd.mode = .accumulatingPayload) (hidx : fd.idx = 3) :
    (fd.feed b).2 =
      if b.toNat = (fd.buf[0].toNat + fd.buf[1].toNat + fd.buf[2].toNat) % 128 then some (frameOf (fd.buf.set 3 b))
      else none := by
  rw [feed_last b hmode hidx]
  refine if_congr ?_ rfl rfl
  rw [frameValid_iff]
  simp

/-- Settles O29: the sum modulo 128 is that of the septets, and 128 or more is no remainder. -/
theorem validityIgnoresBitSevenOfTheData : Obligations.ValidityIgnoresBitSevenOfTheData := by
  intro b s hmode hidx hheader
  have hvalid : (∃ g, Output.frame (s.fd.feed b).2 = .frame (some g)) ↔
      b.toNat = (s.fd.buf[0].toNat + s.fd.buf[1].toNat + s.fd.buf[2].toNat) % 128 := by
    rw [feed_last_frame b hmode hidx]
    split_ifs with h <;> simp [h]
  have hseptets : (s.fd.buf[0].toNat + s.fd.buf[1].toNat + s.fd.buf[2].toNat) % 128 =
      (0x25 + s.fd.buf[1].toNat % 128 + s.fd.buf[2].toNat % 128) % 128 := by
    rw [hheader, show (0xA5 : Byte).toNat = 0xA5 from rfl]
    omega
  refine ⟨_, exec_feed b s, hvalid, hseptets ▸ hvalid, fun hb => ?_⟩
  rw [deliver_out, feed_last_frame b hmode hidx, if_neg (by omega)]

end Sys2Proof.Machine

end

/-! ### Proofs: TRIGGERs inside a POLL (30_encoding.md R105, 43_motion_latch.md R181) -/

section

namespace Sys2Proof.Machine

/-- TRIGGERs reach the latch alone, and the last of them decides it. -/
theorem runOps_triggers (times : List Timestamp) (s : State) :
    ∃ u outs, runOps (times.map .trigger) s = some (u, outs) ∧ u.cfg = s.cfg ∧ u.fd = s.fd ∧ u.bc = s.bc ∧
      u.ml = times.getLast?.elim s.ml (MlState.set s.cfg) := by
  induction times using List.reverseRecOn with
  | nil => exact ⟨s, [], rfl, rfl, rfl, rfl, rfl⟩
  | append_singleton times x ih =>
    obtain ⟨u, outs, hrun, hcfg, hfd, hbc, -⟩ := ih
    rw [List.map_append]
    refine ⟨_, _, runOps_snoc hrun (exec_trigger x u), hcfg, hfd, hbc, ?_⟩
    simp [hcfg]

/-- A POLL is its QUERY, then the TRIGGERs and the TICK with the bit the QUERY returned. -/
theorem poll_of_query {now : Timestamp} {lux : Binary32} {between : List Timestamp} {s q u : State} {outs : List Output}
    (hq : exec (.query now) s = .next q)
    (h : runOps (between.map .trigger ++ [.tick lux q.out.motion]) q = some (u, outs)) :
    poll now lux between s = some (u, q.out :: outs) := by
  simp only [poll, hq, h, Option.map_some]

/-- Settles O59: neither the QUERY nor the TRIGGERs reach the registers and operands of the TICK, which leaves the latch. -/
theorem triggerInsideAPollDoesNotReachItsTick : Obligations.TriggerInsideAPollDoesNotReachItsTick := by
  intro now lux between s
  obtain ⟨q, hq⟩ := exec_next (.query now) s
  obtain ⟨t, ht⟩ := exec_next (.tick lux q.out.motion) s
  obtain ⟨v, outs, hrun, hcfg, hfd, hbc, hml⟩ := runOps_triggers between q
  obtain ⟨u, hu⟩ := exec_next (.tick lux q.out.motion) v
  obtain ⟨hqcfg, -⟩ := exec_cfg_env hq
  obtain ⟨hqfd, -, hqbc⟩ := exec_keeps_other_units hq
  obtain ⟨hufd, huml, -⟩ := exec_keeps_other_units hu
  obtain ⟨hout, -, -, hticked⟩ := exec_reads_own_unit (i := .tick lux q.out.motion) (hcfg.trans hqcfg) nofun nofun
    (fun _ => hbc.trans (hqbc nofun)) hu ht
  refine ⟨q, t, u, _, hq, ht, poll_of_query hq (runOps_snoc hrun hu), hticked rfl, hout,
    (hufd nofun).trans (hfd.trans (hqfd nofun)), ?noTrigger, ?lastTrigger⟩
  case noTrigger =>
    rintro rfl
    exact (huml nofun).trans hml
  case lastTrigger =>
    rintro x rest rfl
    rw [huml nofun, hml, List.getLast?_concat, ← hqcfg]
    exact ⟨rfl, lowBits_toNat ..⟩

end Sys2Proof.Machine

end

/-! ### Proofs: the percentage of a voltage (41_voltage_to_percent.md) -/

section

namespace Sys2Proof.Machine

/-! #### The breakpoints, at every index -/

/-- Each segment of a well-formed configuration has a positive run and no negative rise. -/
theorem wf_segment {c : Config} (h : c.wf = true) (i : Fin 6) :
    c.vpX[i.val] < c.vpX[i.val + 1] ∧ c.vpY[i.val] ≤ c.vpY[i.val + 1] := by
  obtain ⟨hx0, hx1, hx2, hx3, hx4, hx5⟩ := wf_vpX h
  obtain ⟨-, hy0, hy1, hy2, hy3, hy4, hy5, -⟩ := wf_vpY h
  match i with
  | 0 => exact ⟨hx0, hy0⟩
  | 1 => exact ⟨hx1, hy1⟩
  | 2 => exact ⟨hx2, hy2⟩
  | 3 => exact ⟨hx3, hy3⟩
  | 4 => exact ⟨hx4, hy4⟩
  | 5 => exact ⟨hx5, hy5⟩

theorem vpX_monotone {c : Config} (h : c.wf = true) : Monotone fun i : Fin 7 => c.vpX[i.val] :=
  Fin.monotone_iff_le_succ.mpr fun i => (wf_segment h i).1.le

theorem vpY_monotone {c : Config} (h : c.wf = true) : Monotone fun i : Fin 7 => c.vpY[i.val] :=
  Fin.monotone_iff_le_succ.mpr fun i => (wf_segment h i).2

/-! #### The percentage below, above and in the segments (R120) -/

theorem percentOf_below {c : Config} {mv : Int} (lt : mv < c.vpX[0]) : percentOf c mv = 0 := if_pos lt

theorem percentOf_above {c : Config} (h : c.wf = true) {mv : Int} (ge : c.vpX[6] ≤ mv) : percentOf c mv = 100 := by
  have hx : c.vpX[0] ≤ c.vpX[6] := vpX_monotone h (Fin.zero_le 6)
  rw [percentOf, if_neg (by omega), if_pos ge]

theorem percentOf_segment {c : Config} (h : c.wf = true) {mv : Int} (i : Fin 6) (lo : c.vpX[i.val] ≤ mv)
    (hi : mv < c.vpX[i.val + 1]) : percentOf c mv = segmentValue c mv i := by
  have hfirst : c.vpX[0] ≤ c.vpX[i.val] := vpX_monotone h (Fin.zero_le i.castSucc)
  have hlast : c.vpX[i.val + 1] ≤ c.vpX[6] := vpX_monotone h (Fin.le_last i.succ)
  rw [percentOf, if_neg (by omega), if_neg (by omega), segmentIndex_of_mem h i lo hi]

/-- A voltage is below the first breakpoint, from the last one up, or in one of the six segments. -/
theorem voltage_cases {c : Config} (h : c.wf = true) (mv : Int) :
    mv < c.vpX[0] ∨ c.vpX[6] ≤ mv ∨ ∃ i : Fin 6, c.vpX[i.val] ≤ mv ∧ mv < c.vpX[i.val + 1] := by
  by_cases lo : mv < c.vpX[0]
  · exact .inl lo
  by_cases hi : c.vpX[6] ≤ mv
  · exact .inr (.inl hi)
  · obtain ⟨i, -, hmem⟩ := segmentIndex_mem h (Int.not_lt.mp lo) (Int.not_le.mp hi)
    exact .inr (.inr ⟨i, hmem⟩)

/-! #### Range and monotonicity (R126) -/

theorem percentOf_bounds {c : Config} (h : c.wf = true) (mv : Int) : 0 ≤ percentOf c mv ∧ percentOf c mv ≤ 100 := by
  obtain hlow | hhigh | ⟨i, lo, hi⟩ := voltage_cases h mv
  · rw [percentOf_below hlow]
    decide
  · rw [percentOf_above h hhigh]
    decide
  · have hb := segmentValue_bounds i (wf_segment h i).2 lo hi
    have hlast : c.vpY[i.val + 1] ≤ c.vpY[6] := vpY_monotone h (Fin.le_last i.succ)
    obtain ⟨-, -, -, -, -, -, -, h100⟩ := wf_vpY h
    rw [percentOf_segment h i lo hi]
    omega

/-- The seven bits of the output hold the percentage. -/
theorem pct_toNat {c : Config} (h : c.wf = true) (mv : Int) :
    ((BitVec.ofInt 7 (percentOf c mv)).toNat : Int) = percentOf c mv := by
  have hb := percentOf_bounds h mv
  rw [BitVec.toNat_ofInt]
  omega

/-- Within a segment a larger voltage gives no smaller value. -/
theorem segmentValue_mono {c : Config} (h : c.wf = true) (i : Fin 6) {a b : Int} (hab : a ≤ b) :
    segmentValue c a i ≤ segmentValue c b i := by
  obtain ⟨hx, hy⟩ := wf_segment h i
  have hnum := Int.mul_le_mul_of_nonneg_right (show a - c.vpX[i.val] ≤ b - c.vpX[i.val] by omega)
    (show 0 ≤ (c.vpY[i.val + 1] : Int) - c.vpY[i.val] by omega)
  have hq := quotient_mono c.vpRound (c.vpX[i.val + 1] - c.vpX[i.val]) (by omega) hnum
  unfold segmentValue
  omega

/-- Voltages of two segments: within one the formula ascends, and across two the percentage at a breakpoint between them
separates the values. -/
theorem percentOf_mono {c : Config} (h : c.wf = true) {a b : Int} (hab : a ≤ b) : percentOf c a ≤ percentOf c b := by
  obtain halow | hahigh | ⟨i, loa, hia⟩ := voltage_cases h a
  · rw [percentOf_below halow]
    exact (percentOf_bounds h b).1
  · rw [percentOf_above h hahigh, percentOf_above h (hahigh.trans hab)]
  obtain hblow | hbhigh | ⟨j, lob, hib⟩ := voltage_cases h b
  · rw [percentOf_below (hab.trans_lt hblow), percentOf_below hblow]
  · rw [percentOf_above h hbhigh]
    exact (percentOf_bounds h a).2
  rw [percentOf_segment h i loa hia, percentOf_segment h j lob hib]
  obtain hij | rfl | hji := lt_trichotomy i j
  · have hy : c.vpY[i.val + 1] ≤ c.vpY[j.val] := vpY_monotone h (show i.succ ≤ j.castSucc from hij)
    have ha := segmentValue_bounds i (wf_segment h i).2 loa hia
    have hb := segmentValue_bounds j (wf_segment h j).2 lob hib
    omega
  · exact segmentValue_mono h i hab
  · have hx : c.vpX[j.val + 1] ≤ c.vpX[i.val] := vpX_monotone h (show j.succ ≤ i.castSucc from hji)
    omega

/-- A voltage that reaches a percentage while the voltage one below does not is the smallest that reaches it. -/
theorem le_percentOf_iff {c : Config} (h : c.wf = true) {k v : Int} (reached : k ≤ percentOf c v)
    (first : percentOf c (v - 1) < k) (mv : Int) : k ≤ percentOf c mv ↔ v ≤ mv := by
  refine ⟨fun hk => ?_, fun hv => reached.trans (percentOf_mono h hv)⟩
  by_contra hlt
  have hmono := percentOf_mono h (show mv ≤ v - 1 by omega)
  omega

/-! #### The statements -/

/-- Settles O21: the clamps, and in a segment the quotient of R124 under either rounding. -/
theorem percentFollowsTheSegmentFormula : Obligations.PercentFollowsTheSegmentFormula := by
  refine fun mv s h => ⟨_, exec_percent mv s, fun hlow => ?_, fun hhigh => ?_, fun i hi lo hi' => ?_⟩
  · rw [percentOf_below hlow]
    rfl
  · rw [percentOf_above h hhigh]
    rfl
  · rw [pct_toNat h, percentOf_segment h ⟨i, hi⟩ lo hi', segmentValue]
    cases s.cfg.vpRound with
    | trunc => rfl
    | nearest => rw [quotient, ← mul_assoc]

theorem default_wf : Config.default.wf = true := by decide

/-- Settles O22: the segment formula at the breakpoints of this hardware, each fraction reduced to lowest terms. -/
theorem percentOfThisHardware : Obligations.PercentOfThisHardware := by
  rintro mv ⟨_, fd, ml, bc, out, env⟩ rfl
  obtain ⟨p, hexec, hlow, hhigh, hsegment⟩ :=
    percentFollowsTheSegmentFormula mv ⟨Config.default, fd, ml, bc, out, env⟩ default_wf
  have h0 : 3000 ≤ mv → mv < 3300 → (p.toNat : Int) = 0 + (mv - 3000) * 5 / 300 := hsegment 0 (by decide)
  have h1 : 3300 ≤ mv → mv < 3600 → (p.toNat : Int) = 5 + (mv - 3300) * 15 / 300 := hsegment 1 (by decide)
  have h2 : 3600 ≤ mv → mv < 3700 → (p.toNat : Int) = 20 + (mv - 3600) * 20 / 100 := hsegment 2 (by decide)
  have h3 : 3700 ≤ mv → mv < 3800 → (p.toNat : Int) = 40 + (mv - 3700) * 20 / 100 := hsegment 3 (by decide)
  have h4 : 3800 ≤ mv → mv < 4000 → (p.toNat : Int) = 60 + (mv - 3800) * 25 / 200 := hsegment 4 (by decide)
  have h5 : 4000 ≤ mv → mv < 4200 → (p.toNat : Int) = 85 + (mv - 4000) * 15 / 200 := hsegment 5 (by decide)
  refine ⟨p, hexec, hlow, fun h => BitVec.eq_of_toNat_eq ?_, hhigh, ?_, ?_, ?_, ?_, ?_, ?_⟩
  · show p.toNat = 0
    omega
  all_goals omega

/-- Settles O23, by the range and the monotonicity of the percentage. -/
theorem percentIsBoundedAndMonotone : Obligations.PercentIsBoundedAndMonotone := by
  intro a b s h hab
  have hp := pct_toNat h a
  have hq := pct_toNat h b
  have hmono := percentOf_mono h hab
  have hb := percentOf_bounds h b
  exact ⟨_, _, exec_percent a s, exec_percent b s, by omega, by omega⟩

/-- Settles O24: the percentage is monotone, so a listed pair is decided by its voltage and the one below. -/
theorem percentReachesItsStepsAtTheListedVoltages : Obligations.PercentReachesItsStepsAtTheListedVoltages := by
  rintro mv ⟨_, fd, ml, bc, out, env⟩ rfl
  refine ⟨_, exec_percent mv _, fun k hk => ?_⟩
  obtain ⟨reached, first⟩ : (k.1 : Int) ≤ percentOf Config.default k.2 ∧ percentOf Config.default (k.2 - 1) < k.1 := by
    revert k
    decide
  rw [← Int.ofNat_le, pct_toNat default_wf mv]
  exact le_percentOf_iff default_wf reached first mv

/-- Every operation replaces the outputs of the one before (R39), whatever they were. -/
theorem exec_out (i : Instr) (s : State) (o : Output) : exec i { s with out := o } = exec i s := by
  cases i <;> rfl

/-- Settles O25: the result depends on the operand and the configuration, which no operation writes; and PERCENT leaves
behind only an output, which no operation reads. -/
theorem percentIsPure : Obligations.PercentIsPure := by
  intro mv c
  refine ⟨BitVec.ofInt 7 (percentOf c mv), ?_⟩
  rintro s rfl
  refine ⟨exec_percent mv s, fun i => ?_⟩
  obtain ⟨t, ht⟩ := exec_next i s
  refine ⟨t, ht, (exec_out i s _).trans ht, ?_⟩
  obtain ⟨hcfg, -⟩ := exec_cfg_env ht
  rw [← hcfg]
  exact exec_percent mv t

end Sys2Proof.Machine

end

/-! ### Proofs: one byte fed to the frame decoder (42_frame_decoder.md R141 to R143, R146) -/

section

namespace Sys2Proof.Machine

/-- Settles O26: the rows of R153 for a searching decoder. -/
theorem feedWhileSearching : Obligations.FeedWhileSearching := by
  intro b s hmode
  rw [exec_feed]
  split_ifs with hb
  · rw [hb, show (0xA5 : Byte) = Const.header from rfl, feed_header hmode]
    rfl
  · rw [feed_other hmode hb]
    rfl

/-- An element of a buffer after its one store. -/
theorem getElem_buf_set (buf : Vector Byte 4) (i j : Fin 4) (b : Byte) :
    (buf.set i b)[j.val] = if j = i then b else buf[j.val] := by
  simp only [Vector.getElem_set, Fin.ext_iff, eq_comm]

/-- Settles O27: neither index is the last, so the byte is stored and the index advances without a wrap. -/
theorem feedWhileAccumulating : Obligations.FeedWhileAccumulating := by
  intro b s hmode hidx
  have hlast : s.fd.idx ≠ 3 := by
    obtain h | h := hidx <;> rw [h] <;> decide
  have hnext : (s.fd.idx + 1).val = s.fd.idx.val + 1 := by
    obtain h | h := hidx <;> rw [h] <;> rfl
  refine ⟨⟨.accumulatingPayload, s.fd.idx + 1, s.fd.buf.set s.fd.idx b⟩, ?_, rfl, hnext,
    fun j => getElem_buf_set s.fd.buf s.fd.idx j b⟩
  rw [exec_feed, feed_payload b hmode hlast]
  rfl

/-- A fourth byte that is a remainder modulo 128 is its own checksum septet. -/
theorem frameOf_fields {buf : Vector Byte 4} (h : buf[3].toNat < 128) :
    (frameOf buf).header = buf[0] ∧ (frameOf buf).dataHigh.toNat = buf[1].toNat % 128 ∧
      (frameOf buf).dataLow.toNat = buf[2].toNat % 128 ∧ (frameOf buf).checksum.toNat = buf[3].toNat ∧
      (frameOf buf).concentration.toNat = (frameOf buf).dataHigh.toNat * 128 + (frameOf buf).dataLow.toNat := by
  refine ⟨rfl, BitVec.toNat_setWidth .., BitVec.toNat_setWidth .., ?checksum, ?concentration⟩
  case checksum => exact (BitVec.toNat_setWidth ..).trans (Nat.mod_eq_of_lt h)
  case concentration =>
    have hhigh := (buf[1].setWidth 7).isLt
    have hlow := (buf[2].setWidth 7).isLt
    simp only [frameOf, Const.septetWeight, BitVec.toNat_ofNat]
    omega

/-- Settles O28: the last row of R153 stores the byte and searches again, and R93 decides what is delivered. -/
theorem feedCompletesAFrame : Obligations.FeedCompletesAFrame := by
  intro b s hmode hidx
  have hfd : (s.fd.feed b).1 = ⟨.searchingHeader, 0, s.fd.buf.set 3 b⟩ := by rw [feed_last b hmode hidx]
  have hframe := feed_last_frame b hmode hidx
  refine ⟨_, _, exec_feed b s, congrArg FdState.mode hfd, congrArg FdState.idx hfd, fun j => ?buffer,
    fun hbad => ?invalid, fun hok => ?valid⟩
  case buffer =>
    rw [hfd]
    exact getElem_buf_set s.fd.buf 3 j b
  case invalid => rw [hframe, if_neg hbad]
  case valid =>
    obtain ⟨hheader, hhigh, hlow, hsum, hconc⟩ := frameOf_fields (buf := s.fd.buf.set 3 b) (by simp; omega)
    refine ⟨_, hframe.trans (if_pos hok), ?_, ?_, ?_, ?_, hconc⟩
    · simpa using hheader
    · simpa using hhigh
    · simpa using hlow
    · simpa using hsum

/-- Settles O30: the fourth byte leaves a searching decoder whatever it is, and O26 says what that does with the next. -/
theorem nextByteAfterAFrameIsTestedAsHeader : Obligations.NextByteAfterAFrameIsTestedAsHeader := by
  intro b b' s hmode hidx
  obtain ⟨fd, f, hb, hsearch, hzero, -⟩ := feedCompletesAFrame b s hmode hidx
  have hb' := feedWhileSearching b' { s with fd := fd, out := .frame f } hsearch
  by_cases hheader : b' = 0xA5
  · rw [if_pos hheader] at hb'
    exact ⟨_, _, hb, hb', rfl, hsearch, hzero, fun _ => rfl, fun h => absurd hheader h⟩
  · rw [if_neg hheader] at hb'
    exact ⟨_, _, hb, hb', rfl, hsearch, hzero, fun h => absurd h hheader, fun _ => rfl⟩

end Sys2Proof.Machine

end

/-! ### Proofs: a stream of bytes fed to the frame decoder (42_frame_decoder.md R143, R147, R148) -/

section

namespace Sys2Proof.Machine

/-- A stream of bytes on FD's registers: the registers after the last byte and the frame, or none, of each byte. -/
def FdState.feedAll : List Byte → FdState → FdState × List (Option Frame)
  | [], fd => (fd, [])
  | b :: bytes, fd => (((fd.feed b).1.feedAll bytes).1, (fd.feed b).2 :: ((fd.feed b).1.feedAll bytes).2)

@[simp] theorem feedAll_nil (fd : FdState) : fd.feedAll [] = (fd, []) := rfl

theorem feedAll_cons (b : Byte) (bytes : List Byte) (fd : FdState) :
    fd.feedAll (b :: bytes) =
      (((fd.feed b).1.feedAll bytes).1, (fd.feed b).2 :: ((fd.feed b).1.feedAll bytes).2) := rfl

/-- A stream is its first part, then the rest from where that ended. -/
theorem feedAll_append (bytes more : List Byte) (fd : FdState) :
    fd.feedAll (bytes ++ more) = (((fd.feedAll bytes).1.feedAll more).1,
      (fd.feedAll bytes).2 ++ ((fd.feedAll bytes).1.feedAll more).2) := by
  induction bytes generalizing fd with
  | nil => rfl
  | cons b bytes ih => simp [feedAll_cons, ih]

@[simp] theorem length_feedAll (bytes : List Byte) (fd : FdState) : (fd.feedAll bytes).2.length = bytes.length := by
  induction bytes generalizing fd with
  | nil => rfl
  | cons b bytes ih => simp [feedAll_cons, ih]

/-- FEEDS (R105) is the stream on FD's registers; no other register changes, and `out` holds the last FEED's output. -/
theorem runOps_feeds (bytes : List Byte) (s : State) :
    runOps (feeds bytes) s =
      some (({ s with fd := (s.fd.feedAll bytes).1 }).deliver ((s.fd.feedAll bytes).2.getLast?.elim s.out .frame),
        (s.fd.feedAll bytes).2.map .frame) := by
  induction bytes generalizing s with
  | nil => rfl
  | cons b bytes ih =>
    rw [feeds, List.map_cons, runOps_cons (exec_feed b s), ← feeds, ih, feedAll_cons]
    cases h : ((s.fd.feed b).1.feedAll bytes).2.getLast? <;> simp [List.getLast?_cons, h] <;> rfl

/-- The same, in the registers and the frames of a stream that is known. -/
theorem runOps_feeds_of_feedAll {bytes : List Byte} {s : State} {fd : FdState} {frames : List (Option Frame)}
    (h : s.fd.feedAll bytes = (fd, frames)) :
    ∃ t, runOps (feeds bytes) s = some (t, frames.map .frame) ∧ t.fd = fd := by
  rw [runOps_feeds, h]
  exact ⟨_, rfl, rfl⟩

/-- Bytes other than the header leave a searching decoder as it is (R147). -/
theorem feedAll_noise {noise : List Byte} {fd : FdState} (hmode : fd.mode = .searchingHeader)
    (hnoise : ∀ b ∈ noise, b ≠ Const.header) : fd.feedAll noise = (fd, noise.map fun _ => none) := by
  induction noise with
  | nil => rfl
  | cons b noise ih =>
    obtain ⟨hb, hnoise⟩ := List.forall_mem_cons.mp hnoise
    rw [feedAll_cons, feed_other hmode hb, ih hnoise, List.map_cons]

/-- Four stores write the whole buffer. -/
theorem set_every_element (buf : Vector Byte 4) (b0 b1 b2 b3 : Byte) :
    (((buf.set 0 b0).set 1 b1).set 2 b2).set 3 b3 = #v[b0, b1, b2, b3] := by
  ext j hj : 1
  interval_cases j <;> simp

/-- What the fourth byte of a group delivers (R93). -/
def groupFrame (b1 b2 b3 : Byte) : Option Frame :=
  if b3.toNat = (0xA5 + b1.toNat + b2.toNat) % 128 then some (frameOf #v[Const.header, b1, b2, b3]) else none

/-- A group of four bytes from a searching decoder, row by row (R153). -/
theorem feedAll_group {fd : FdState} (b1 b2 b3 : Byte) (hmode : fd.mode = .searchingHeader) :
    fd.feedAll [Const.header, b1, b2, b3] =
      (⟨.searchingHeader, 0, #v[Const.header, b1, b2, b3]⟩, [none, none, none, groupFrame b1 b2 b3]) := by
  have h1 (buf) : FdState.feed b1 ⟨.accumulatingPayload, 1, buf⟩ = (⟨.accumulatingPayload, 2, buf.set 1 b1⟩, none) :=
    feed_payload b1 rfl (show (1 : Fin 4) ≠ 3 by decide)
  have h2 (buf) : FdState.feed b2 ⟨.accumulatingPayload, 2, buf⟩ = (⟨.accumulatingPayload, 3, buf.set 2 b2⟩, none) :=
    feed_payload b2 rfl (show (2 : Fin 4) ≠ 3 by decide)
  have h3 (buf) : (FdState.feed b3 ⟨.accumulatingPayload, 3, buf⟩).1 = ⟨.searchingHeader, 0, buf.set 3 b3⟩ :=
    congrArg Prod.fst (feed_last b3 rfl rfl)
  have hframe (buf) := feed_last_frame (fd := ⟨.accumulatingPayload, 3, buf⟩) b3 rfl rfl
  simp only [feedAll_cons, feed_header hmode, h1, h2, h3, hframe, feedAll_nil, set_every_element]
  simp [groupFrame, show Const.header.toNat = 0xA5 from rfl]

/-- Settles O31: the group's own equation, with the other registers those of `runOps_feeds`. -/
theorem groupOfFourBytes : Obligations.GroupOfFourBytes := by
  intro b1 b2 b3 s hmode
  refine ⟨groupFrame b1 b2 b3, ?_, ?_⟩
  · rw [show (0xA5 : Byte) = Const.header from rfl, runOps_feeds, feedAll_group b1 b2 b3 hmode]
    rfl
  · unfold groupFrame
    split_ifs with h <;> simp [h]

/-- A stream's frames after noise are those without the noise, and so are the registers. -/
theorem feedAll_noise_append {noise : List Byte} (bytes : List Byte) {fd : FdState} (hmode : fd.mode = .searchingHeader)
    (hnoise : ∀ b ∈ noise, b ≠ Const.header) :
    fd.feedAll (noise ++ bytes) = ((fd.feedAll bytes).1, (noise.map fun _ => none) ++ (fd.feedAll bytes).2) := by
  rw [feedAll_append, feedAll_noise hmode hnoise]

/-- Settles O32: noise leaves the searching decoder as it is, so the last FEED of a stream that is not empty is the same;
the source's frame is a group, valid with 0x52 and not with 0x9E. -/
theorem leadingNoiseHasNoEffect : Obligations.LeadingNoiseHasNoEffect := by
  refine ⟨fun noise bytes s hmode hnoise hbytes => ?anyNoise, fun s hmode => ?sourceTest⟩
  case anyNoise =>
    have hlast : (s.fd.feedAll bytes).2 ≠ [] := by
      rwa [← List.length_pos_iff, length_feedAll, List.length_pos_iff]
    refine ⟨_, _, runOps_feeds bytes s, ?_⟩
    rw [runOps_feeds, feedAll_noise_append bytes hmode hnoise]
    simp [List.getLast?_append_of_ne_nil _ hlast]
  case sourceTest =>
    have htest (b3 : Byte) : s.fd.feedAll ([0x00, 0x00] ++ [Const.header, 0x01, 0x2C, b3]) =
        (⟨.searchingHeader, 0, #v[Const.header, 0x01, 0x2C, b3]⟩,
          [none, none, none, none, none, groupFrame 0x01 0x2C b3]) := by
      rw [feedAll_noise_append _ hmode (by decide), feedAll_group _ _ _ hmode]
      rfl
    obtain ⟨t, ht, -⟩ := runOps_feeds_of_feedAll (htest 0x52)
    obtain ⟨u, hu, -⟩ := runOps_feeds_of_feedAll (htest 0x9E)
    exact ⟨t, u, frameOf #v[Const.header, 0x01, 0x2C, 0x52], by decide, ht, hu⟩

/-- Settles O33: each example starts with a group, invalid and followed by a byte that is no header, or valid. -/
theorem theTwoExamplesOfAFalseHeader : Obligations.TheTwoExamplesOfAFalseHeader := by
  intro s hmode
  have hlost : s.fd.feedAll ([Const.header, 0xA5, 0x01, 0x2C] ++ [0x52]) =
      (⟨.searchingHeader, 0, #v[Const.header, 0xA5, 0x01, 0x2C]⟩,
        [none, none, none, groupFrame 0xA5 0x01 0x2C, none]) := by
    rw [feedAll_append, feedAll_group _ _ _ hmode, feedAll_noise (noise := [0x52]) rfl (by decide)]
    rfl
  obtain ⟨t, ht, htfd⟩ := runOps_feeds_of_feedAll hlost
  obtain ⟨u, hu, -⟩ := runOps_feeds_of_feedAll (feedAll_group 0xA5 0x01 0x4B hmode)
  exact ⟨t, u, frameOf #v[Const.header, 0xA5, 0x01, 0x4B], by decide, ht, by rw [htfd], hu⟩

end Sys2Proof.Machine

end

/-! ### Proofs: how long a corruption lasts (42_frame_decoder.md R149, R153) -/

section

namespace Sys2Proof.Machine

/-- How many more FEEDs the group in progress takes. -/
def FdState.pending (fd : FdState) : Nat :=
  match fd.mode with
  | .searchingHeader => 0
  | .accumulatingPayload => 4 - fd.idx.val

theorem pending_searching {fd : FdState} (h : fd.mode = .searchingHeader) : fd.pending = 0 := by
  simp only [FdState.pending, h]

theorem pending_accumulating {fd : FdState} (h : fd.mode = .accumulatingPayload) : fd.pending = 4 - fd.idx.val := by
  simp only [FdState.pending, h]

theorem pending_eq_zero_iff (fd : FdState) : fd.pending = 0 ↔ fd.mode = .searchingHeader := by
  refine ⟨fun h => ?_, pending_searching⟩
  cases hmode : fd.mode with
  | searchingHeader => rfl
  | accumulatingPayload =>
    rw [pending_accumulating hmode] at h
    omega

/-- A legal decoder is at most three bytes from the end of its group: it holds the header. -/
theorem pending_le_three {fd : FdState} (h : fd.Inv) : fd.pending ≤ 3 := by
  obtain ⟨hidx, -⟩ := h
  cases hmode : fd.mode with
  | searchingHeader => rw [pending_searching hmode]; omega
  | accumulatingPayload =>
    have hpos : fd.idx.val ≠ 0 := fun h0 => nomatch hmode.symm.trans (hidx.mpr (Fin.ext h0))
    rw [pending_accumulating hmode]
    omega

/-- Inside a group every byte brings its end nearer (R153). -/
theorem pending_feed_of_ne_zero {fd : FdState} (b : Byte) (h : fd.pending ≠ 0) :
    (fd.feed b).1.pending = fd.pending - 1 := by
  cases hmode : fd.mode with
  | searchingHeader => exact absurd (pending_searching hmode) h
  | accumulatingPayload =>
    rw [pending_accumulating hmode]
    by_cases hidx : fd.idx = 3
    · rw [feed_last b hmode hidx, pending_searching rfl, hidx]
      rfl
    · have hnext : (fd.idx + 1).val = fd.idx.val + 1 := Fin.val_add_one_of_lt (Fin.lt_last_iff_ne_last.mpr hidx)
      rw [feed_payload b hmode hidx, pending_accumulating rfl, hnext]
      omega

/-- Settles O34: each FEED brings the end of the group, at most three bytes away, one byte nearer. -/
theorem decoderSearchesAgainWithinThreeFeeds : Obligations.DecoderSearchesAgainWithinThreeFeeds := by
  intro b1 b2 b3 s hinv hmode
  refine ⟨_, _, _, exec_feed b1 s, exec_feed b2 _, exec_feed b3 _, ?_⟩
  simp only [deliver_fd, setFd_fd, ← pending_eq_zero_iff]
  by_contra! hnever
  obtain ⟨h1, h2, h3⟩ := hnever
  have hlegal := pending_le_three hinv
  have hstart : s.fd.pending ≠ 0 := fun h0 => nomatch hmode.symm.trans ((pending_eq_zero_iff _).mp h0)
  rw [pending_feed_of_ne_zero b3 h2, pending_feed_of_ne_zero b2 h1, pending_feed_of_ne_zero b1 hstart] at h3
  omega

/-- A byte other than the header begins no group. -/
theorem pending_feed_of_ne_header {fd : FdState} {b : Byte} (hb : b ≠ Const.header) :
    (fd.feed b).1.pending = fd.pending - 1 := by
  by_cases hzero : fd.pending = 0
  · rw [feed_other ((pending_eq_zero_iff fd).mp hzero) hb, hzero]
  · exact pending_feed_of_ne_zero b hzero

theorem pending_feedAll_of_ne_header {bytes : List Byte} {fd : FdState} (h : ∀ b ∈ bytes, b ≠ Const.header) :
    (fd.feedAll bytes).1.pending = fd.pending - bytes.length := by
  induction bytes generalizing fd with
  | nil => rfl
  | cons b bytes ih =>
    obtain ⟨hb, h⟩ := List.forall_mem_cons.mp h
    rw [feedAll_cons, ih h, pending_feed_of_ne_header hb, List.length_cons]
    omega

/-! #### Well-formed streams (30_encoding.md R90, R95) -/

/-- The header has bit 7 set (R95). -/
theorem ne_header_of_lt {b : Byte} (h : b.toNat < 128) : b ≠ Const.header := by
  rintro rfl
  exact absurd h (by decide)

/-- A septet is sent as a byte with bit 7 clear (R90). -/
theorem septet_toNat (x : Septet) : (x.setWidth 8).toNat = x.toNat := by
  rw [BitVec.toNat_setWidth]
  omega

theorem checksumByte_toNat (h l : Septet) : (checksumByte h l).toNat = (0xA5 + h.toNat + l.toNat) % 128 := by
  rw [checksumByte, BitVec.toNat_ofNat, show Const.header.toNat = 0xA5 from rfl]
  omega

/-- The bytes of a true frame after its header are no header (R95). -/
theorem frame_rest_ne_header (h l : Septet) :
    ∀ b ∈ [h.setWidth 8, l.setWidth 8, checksumByte h l], b ≠ Const.header := by
  have hh := septet_toNat h
  have hl := septet_toNat l
  have hc := checksumByte_toNat h l
  simp only [List.forall_mem_cons, List.not_mem_nil, false_imp_iff, implies_true, and_true]
  exact ⟨ne_header_of_lt (by omega), ne_header_of_lt (by omega), ne_header_of_lt (by omega)⟩

/-- Every piece of a well-formed stream brings the end of the group in progress nearer by its length: a frame met while
searching is a whole group, and one that is cut into has no second header. -/
theorem pending_feedAll_piece {x : Piece} {fd : FdState} (hx : x.wellFormed = true) (h3 : fd.pending ≤ 3) :
    (fd.feedAll x.bytes).1.pending = fd.pending - x.bytes.length := by
  cases x with
  | filler b =>
    have hb : b ≠ Const.header := bne_iff_ne.mp hx
    exact pending_feedAll_of_ne_header (by simpa [Piece.bytes] using hb)
  | frame h l =>
    by_cases hzero : fd.pending = 0
    · rw [Piece.bytes, feedAll_group _ _ _ ((pending_eq_zero_iff fd).mp hzero), hzero, pending_searching rfl,
        Nat.zero_sub]
    · rw [Piece.bytes, feedAll_cons, pending_feedAll_of_ne_header (frame_rest_ne_header h l),
        pending_feed_of_ne_zero _ hzero]
      show fd.pending - 1 - 3 = fd.pending - 4
      omega

/-- So does a well-formed stream: three bytes or more of it end the group it began in, and leave the decoder searching. -/
theorem pending_feedAll_pieces {l : List Piece} {fd : FdState} (hl : ∀ x ∈ l, x.wellFormed = true)
    (h3 : fd.pending ≤ 3) :
    (fd.feedAll (l.flatMap Piece.bytes)).1.pending = fd.pending - (l.flatMap Piece.bytes).length := by
  induction l generalizing fd with
  | nil => rfl
  | cons x l ih =>
    obtain ⟨hx, hl⟩ := List.forall_mem_cons.mp hl
    have hpiece := pending_feedAll_piece hx h3
    rw [List.flatMap_cons, feedAll_append, ih hl (by omega), hpiece, List.length_append]
    omega

/-- The concatenation of two septets is the weighted sum (R94, R152). -/
theorem append_toNat (h l : Septet) : (h ++ l).toNat = h.toNat * 128 + l.toNat := by
  rw [BitVec.toNat_append, ← Nat.shiftLeft_add_eq_or_of_lt l.isLt, Nat.shiftLeft_eq]

/-- The fields of a true frame are those it was made of (R90, R92, R94). -/
theorem frameOf_true_frame (h l : Septet) :
    frameOf #v[Const.header, h.setWidth 8, l.setWidth 8, checksumByte h l] = trueFrame h l := by
  have septet (x : Septet) : (x.setWidth 8).setWidth 7 = x := by simp
  have hconc : BitVec.ofNat 14 (h.toNat * 128 + l.toNat) = h ++ l := by
    rw [← append_toNat, BitVec.ofNat_toNat, BitVec.setWidth_eq]
  simp only [frameOf, trueFrame, Const.septetWeight, Frame.mk.injEq]
  exact ⟨rfl, septet h, septet l, rfl, by simpa [septet] using hconc⟩

/-- A true frame passes the checksum (R93) and is delivered. -/
theorem groupFrame_of_true_frame (h l : Septet) :
    groupFrame (h.setWidth 8) (l.setWidth 8) (checksumByte h l) = some (trueFrame h l) := by
  rw [groupFrame, if_pos (by rw [checksumByte_toNat, septet_toNat, septet_toNat]), frameOf_true_frame]

/-- Settles O35: after three bytes the decoder searches, so the frame is a group of its own. -/
theorem corruptionLastsAtMostThreeBytesMore : Obligations.CorruptionLastsAtMostThreeBytesMore := by
  intro before h l s hinv hbefore hlen
  have hlegal := pending_le_three hinv
  have hpending := pending_feedAll_pieces hbefore hlegal
  have hsearch := (pending_eq_zero_iff _).mp (hpending.trans (Nat.sub_eq_zero_of_le (hlegal.trans hlen)))
  have hrun := feedAll_append (before.flatMap Piece.bytes) (Piece.frame h l).bytes s.fd
  rw [Piece.bytes, feedAll_group _ _ _ hsearch, groupFrame_of_true_frame] at hrun
  obtain ⟨t, ht, -⟩ := runOps_feeds_of_feedAll hrun
  refine ⟨t, (s.fd.feedAll (before.flatMap Piece.bytes)).2.map .frame, by simp, ?_⟩
  rw [Piece.bytes, ht, List.map_append]
  rfl

end Sys2Proof.Machine

end

/-! ### Proofs: NOP between other operations (42_frame_decoder.md R150) -/

section

namespace Sys2Proof.Machine

/-- The runs of a list of operations and of the list without its NOPs end in the same registers and return the same
outputs but for the empty ones, from states that differ in the last output alone: that is all a NOP leaves behind. -/
theorem runOps_filter_nop (ops : List Instr) (s : State) (o : Output) :
    ∃ t t' outs outs', runOps ops (s.deliver o) = some (t, outs) ∧
      runOps (ops.filter fun i => i ≠ .nop) s = some (t', outs') ∧ t.sameRegisters t' ∧
      outs.filter (fun x => x ≠ .none) = outs'.filter (fun x => x ≠ .none) := by
  induction ops generalizing s o with
  | nil => exact ⟨_, s, [], [], rfl, rfl, ⟨rfl, rfl, rfl⟩, rfl⟩
  | cons i ops ih =>
    by_cases hi : i = .nop
    · subst hi
      obtain ⟨t, t', outs, outs', hrun, hrun', hend, houts⟩ := ih s .none
      refine ⟨t, t', .none :: outs, outs', ?_, hrun', hend, houts⟩
      rw [runOps_cons (exec_nop _), show (s.deliver o).deliver .none = s.deliver .none from rfl, hrun]
      rfl
    · obtain ⟨v, hv⟩ := exec_next i s
      obtain ⟨t, t', outs, outs', hrun, hrun', hend, houts⟩ := ih v v.out
      refine ⟨t, t', v.out :: outs, v.out :: outs', ?_, ?_, hend, ?_⟩
      · rw [runOps_cons (show exec i (s.deliver o) = .next v from (exec_out i s o).trans hv),
          show runOps ops v = _ from hrun]
        rfl
      · rw [List.filter_cons_of_pos (by simpa using hi), runOps_cons hv, hrun']
        rfl
      · rw [List.filter_cons, List.filter_cons, houts]

theorem encode_nop (c : Config) : encode c .nop = 0 := by
  simp [encode, TW.make]

/-- Settles O36: NOP's word, its one effect, and the runs with and without it. -/
theorem nopChangesNothing : Obligations.NopChangesNothing :=
  ⟨encode_nop, exec_nop, fun ops s => runOps_filter_nop ops s s.out⟩

end Sys2Proof.Machine

end

/-! ### Proofs: TRIGGER, CLEAR and QUERY (43_motion_latch.md R170 to R179) -/

section

namespace Sys2Proof

/-- The word of an operation with a timestamp that fits, as a number (R97, R101). -/
theorem timestamp_word_toNat {c : Config} (op : Byte) {now : Timestamp} (hnow : now.toNat < 2 ^ c.tsw) :
    (TW.make op false (lowBits c.tsw now)).toNat = op.toNat * 2 ^ 40 + now.toNat := by
  rw [(lowBits_eq_iff ..).mpr hnow, make_toNat]

theorem encode_clear (c : Config) : encode c .clear = 0x040000000000 := by
  rw [encode]
  decide

end Sys2Proof

namespace Sys2Proof.Machine

/-! #### What the operations do to the latch -/

/-- QUERY keeps the flag exactly when it was set and not more than the timeout has elapsed (R175). -/
theorem expire_active_iff (c : Config) (now : Timestamp) (ml : MlState) :
    (ml.expire c now).active = true ↔
      ml.active = true ∧ ((now.toNat : Int) - ml.last.toNat) % 2 ^ c.tsw ≤ c.motionTimeout := by
  rw [expire_active, Bool.and_eq_true, decide_eq_true_eq, ← elapsed_cast, Int.ofNat_le]

/-- Everything an operation can do to the latch. -/
theorem exec_latch_cases {i : Instr} {s t : State} (h : exec i s = .next t) :
    (∃ now, i = .trigger now ∧ t.ml = MlState.set s.cfg now) ∨ (i = .clear ∧ t.ml = s.ml.clear) ∨
      (∃ now, i = .query now ∧ t.ml = s.ml.expire s.cfg now) ∨ t.ml = s.ml := by
  obtain ⟨-, hkeep, -⟩ := exec_keeps_other_units h
  cases i with
  | nop => exact .inr (.inr (.inr (hkeep nofun)))
  | percent mv => exact .inr (.inr (.inr (hkeep nofun)))
  | feed b => exact .inr (.inr (.inr (hkeep nofun)))
  | tick lux m => exact .inr (.inr (.inr (hkeep nofun)))
  | trigger now =>
    cases h
    exact .inl ⟨now, rfl, rfl⟩
  | clear =>
    cases h
    exact .inr (.inl ⟨rfl, rfl⟩)
  | query now =>
    cases h
    exact .inr (.inr (.inl ⟨now, rfl, rfl⟩))

/-- The flag falls only by CLEAR and by a late QUERY. -/
theorem clear_or_late_query_of_flag_falls {i : Instr} {s t : State} (h : exec i s = .next t)
    (hon : s.ml.active = true) (hoff : t.ml.active = false) :
    i = .clear ∨ ∃ now, i = .query now ∧
      s.cfg.motionTimeout < ((now.toNat : Int) - s.ml.last.toNat) % 2 ^ s.cfg.tsw := by
  obtain ⟨now, -, hml⟩ | ⟨hclear, -⟩ | ⟨now, hquery, hml⟩ | hml := exec_latch_cases h
  · rw [hml] at hoff
    exact nomatch hoff
  · exact .inl hclear
  · rw [hml, ← Bool.not_eq_true, expire_active_iff] at hoff
    exact .inr ⟨now, hquery, not_le.mp fun hle => hoff ⟨hon, hle⟩⟩
  · rw [hml, hon] at hoff
    exact nomatch hoff

/-- The flag rises only by TRIGGER. -/
theorem trigger_of_flag_rises {i : Instr} {s t : State} (h : exec i s = .next t) (hoff : s.ml.active = false)
    (hon : t.ml.active = true) : ∃ now, i = .trigger now := by
  obtain ⟨now, htrigger, -⟩ | ⟨-, hml⟩ | ⟨now, -, hml⟩ | hml := exec_latch_cases h
  · exact ⟨now, htrigger⟩
  · rw [hml] at hon
    exact nomatch hon
  · rw [hml, expire_active_iff, hoff] at hon
    obtain ⟨hfalse, -⟩ := hon
    exact nomatch hfalse
  · rw [hml, hoff] at hon
    exact nomatch hon

/-- The timestamp is written only by TRIGGER. -/
theorem trigger_of_timestamp_changes {i : Instr} {s t : State} (h : exec i s = .next t)
    (hne : t.ml.last ≠ s.ml.last) : ∃ now, i = .trigger now ∧ t.ml.last.toNat = now.toNat % 2 ^ s.cfg.tsw := by
  obtain ⟨now, htrigger, hml⟩ | ⟨-, hml⟩ | ⟨now, -, hml⟩ | hml := exec_latch_cases h
  · exact ⟨now, htrigger, by rw [hml, set_last, lowBits_toNat]⟩
  · exact absurd (by rw [hml, clear_last]) hne
  · exact absurd (by rw [hml, expire_last]) hne
  · exact absurd (by rw [hml]) hne

/-- Settles O37: the register holds the low bits of the operand, which are the whole of one that fits. -/
theorem triggerRecordsTheEvent : Obligations.TriggerRecordsTheEvent := by
  intro now s
  refine ⟨lowBits s.cfg.tsw now, exec_trigger now s, lowBits_toNat .., fun hfits => ?_, rfl, rfl⟩
  have hnow : now.toNat < 2 ^ s.cfg.tsw := of_decide_eq_true hfits
  exact ⟨(lowBits_eq_iff ..).mpr hnow, timestamp_word_toNat 0x03 hnow⟩

/-- Settles O39: CLEAR's one write, and the TRIGGER's, which does not depend on it. -/
theorem clearForcesInactive : Obligations.ClearForcesInactive := by
  refine fun s => ⟨exec_clear s, fun now t h => ?_, encode_clear s.cfg, rfl, rfl⟩
  cases h
  exact ⟨_, exec_trigger now _, rfl, lowBits_toNat ..⟩

/-- Settles O41: the expiry leaves the timestamp, and its flag is the answer. -/
theorem queryExpiresThenAnswers : Obligations.QueryExpiresThenAnswers := by
  intro now s
  refine ⟨(s.ml.expire s.cfg now).active, ?exec, expire_active_iff .., fun hfits => ?word, rfl, rfl⟩
  case exec =>
    rw [exec_query, ← expire_last s.cfg now s.ml]
    rfl
  case word => exact timestamp_word_toNat 0x05 (of_decide_eq_true hfits)

/-- Settles O43, one lemma for each of the three changes to the latch. -/
theorem motionEndsByTimeoutOrClearOnly : Obligations.MotionEndsByTimeoutOrClearOnly := by
  intro i s
  obtain ⟨t, ht⟩ := exec_next i s
  exact ⟨t, ht, clear_or_late_query_of_flag_falls ht, trigger_of_flag_rises ht, trigger_of_timestamp_changes ht⟩

/-! #### A QUERY after a CLEAR and after TRIGGERs -/

/-- An operation other than TRIGGER keeps an inactive latch inactive. -/
theorem exec_keeps_inactive {i : Instr} {s t : State} (hi : ∀ n, i ≠ .trigger n) (hs : s.ml.active = false)
    (h : exec i s = .next t) : t.ml.active = false := by
  refine Bool.eq_false_iff.mpr fun hon => ?_
  obtain ⟨now, htrigger⟩ := trigger_of_flag_rises h hs hon
  exact hi now htrigger

/-- A QUERY of an inactive latch answers 0. -/
theorem query_out_of_inactive {now : Timestamp} {s t : State} (hs : s.ml.active = false)
    (h : exec (.query now) s = .next t) : t.out = .active false := by
  have hflag := exec_keeps_inactive (i := .query now) nofun hs h
  cases h
  exact congrArg Output.active hflag

/-- Settles O40: CLEAR leaves the latch inactive, the operations keep it so, and the QUERY finds it so. -/
theorem queryAfterClearIsInactive : Obligations.QueryAfterClearIsInactive := by
  intro ops now s hops
  obtain ⟨t, outs, hrun, -⟩ := runOps_total (.clear :: ops) s
  obtain ⟨v, _, hv, hrest, -⟩ := runOps_cons_cases hrun
  have hclear : v.ml.active = false := by
    cases hv
    rfl
  have hinactive : t.ml.active = false :=
    runOps_invariant (P := fun u => u.ml.active = false)
      (fun i hi _ _ hu h => exec_keeps_inactive (hops i hi) hu h) hclear hrest
  obtain ⟨u, hu⟩ := exec_next (.query now) t
  refine ⟨u, outs, ?_⟩
  rw [runOps_snoc hrun hu, query_out_of_inactive hinactive hu]

/-- The answer of a QUERY to a trigger in force (R175, R178). -/
theorem query_out_of_holdsTrigger {c : Config} {t0 now : Timestamp} {s u : State} (hs : s.HoldsTrigger c t0)
    (h : exec (.query now) s = .next u) :
    u.out = .active true ↔ ((now.toNat : Int) - t0.toNat) % 2 ^ c.tsw ≤ c.motionTimeout := by
  obtain ⟨rfl, hml⟩ := hs
  cases h
  rw [deliver_out, Output.active.injEq, hml, expire_active, set_active, Bool.true_and, decide_eq_true_eq, ← elapsed_set,
    Int.ofNat_le]

/-- Settles O38: the last TRIGGER is in force after the run, and decides the QUERY. -/
theorem lastTriggerDecides : Obligations.LastTriggerDecides := by
  intro nows t0 now s
  obtain ⟨t, outs, hrun, hcfg, -, -, hml⟩ := runOps_triggers (nows ++ [t0]) s
  rw [List.getLast?_concat] at hml
  obtain ⟨u, hu⟩ := exec_next (.query now) t
  refine ⟨t, outs, u, hrun, congrArg MlState.active hml, ?_, hu, query_out_of_holdsTrigger ⟨hcfg, hml⟩ hu⟩
  rw [hml]
  exact lowBits_toNat ..

/-- Settles O42: the difference of the two readings is the true elapsed time modulo the wrap. -/
theorem queryOnTrueTimes : Obligations.QueryOnTrueTimes := by
  intro t0 t1 s hwidths hle
  simp only [Config.widthsFit, Bool.and_eq_true, decide_eq_true_eq] at hwidths
  obtain ⟨htsw, -⟩ := hwidths
  obtain ⟨t, ht⟩ := exec_next (.trigger (s.cfg.clock t0)) s
  obtain ⟨u, hu⟩ := exec_next (.query (s.cfg.clock t1)) t
  refine ⟨t, u, ht, hu, ?_⟩
  rw [query_out_of_holdsTrigger (trigger_holdsTrigger ht) hu, clock_sub htsw hle, Int.ofNat_le]

end Sys2Proof.Machine

end

/-! ### Proofs: the duty to poll (70_reset_and_hazards.md R269) -/

section

namespace Sys2Proof.Machine

/-- Settles O60: polling often enough meets both forms of the duty, and the weaker one is what the refinement asks. -/
theorem pollingOftenEnoughHidesNoExpiry : Obligations.PollingOftenEnoughHidesNoExpiry := by
  intro horizon l s hwf hinactive hforward hpolled
  obtain ⟨htsw, -, htimeout⟩ := wf_widths hwf
  exact ⟨polledOften_queriedInTime (.inl rfl) hpolled,
    runAnswers_of_tracks htsw hinactive nofun hforward (polledOften_queriedBeforeWrap htimeout nofun hpolled)⟩

end Sys2Proof.Machine

end

/-! ### Proofs: the base and the target a TICK stores (44_brightness_controller.md R192 to R194) -/

section

namespace Sys2Proof.Machine

/-! #### The light reading as a number, and its order (R192) -/

theorem finite_ge_finite (a b : Int) : (LuxValue.finite a).ge (.finite b) = decide (b ≤ a) := rfl

/-- The numbers of this hardware's thresholds, 100, 300 and 500 in units of `2^-149`. -/
theorem luxValue_default_thresholds :
    luxValue Config.default.luxT1 = .finite (100 * 2 ^ 149) ∧ luxValue Config.default.luxT2 = .finite (300 * 2 ^ 149) ∧
      luxValue Config.default.luxT3 = .finite (500 * 2 ^ 149) := by
  decide

/-- Settles O47: the stored base is `baseOf`, whose chain compares numbers; at the defaults the thresholds' numbers are
`luxValue_default_thresholds`. -/
theorem baseFollowsTheLuxTable : Obligations.BaseFollowsTheLuxTable := by
  intro lux m s
  obtain ⟨hbase, -⟩ := tick_base_target s.cfg lux m s.bc
  refine ⟨s.bc.tick s.cfg lux m, rfl, hbase, fun hdefault => ?_⟩
  obtain ⟨h1, h2, h3⟩ := luxValue_default_thresholds
  rw [hbase, hdefault]
  simp only [baseOf, luxGe, h1, h2, h3]
  cases luxValue lux with
  | nan => rfl
  | negInf => rfl
  | posInf => rfl
  | finite v =>
    simp only [finite_ge_finite, decide_eq_true_eq]
    rfl

/-! #### The order of bit patterns -/

theorem luxFraction_eq (x : Binary32) : luxFraction x = x.toNat % 2 ^ 23 := by
  simp [luxFraction]

theorem luxExponent_eq (x : Binary32) : luxExponent x = x.toNat / 2 ^ 23 % 256 := by
  simp [luxExponent, Nat.shiftRight_eq_div_pow]

theorem luxSign_iff (x : Binary32) : luxSign x = true ↔ 2 ^ 31 ≤ x.toNat := by
  rw [luxSign, show x.getLsbD 31 = x.msb from rfl, BitVec.msb_eq_decide, decide_eq_true_eq]

/-- Every magnitude is below the least one of the next exponent. -/
theorem luxMagnitude_lt_pow (x : Binary32) : luxMagnitude x < 2 ^ 23 * 2 ^ luxExponent x := by
  have hf : luxFraction x < 2 ^ 23 := (x.extractLsb' 0 23).isLt
  unfold luxMagnitude
  split_ifs with h0
  · simpa [h0] using hf
  · obtain ⟨e, he⟩ := Nat.exists_eq_succ_of_ne_zero h0
    rw [he, Nat.succ_sub_one]
    calc (2 ^ 23 + luxFraction x) * 2 ^ e < (2 ^ 23 * 2) * 2 ^ e :=
          Nat.mul_lt_mul_of_pos_right (by omega) (by positivity)
      _ = 2 ^ 23 * 2 ^ (e + 1) := by ring

theorem pow_le_luxMagnitude {x : Binary32} (h : luxExponent x ≠ 0) :
    2 ^ 23 * 2 ^ (luxExponent x - 1) ≤ luxMagnitude x := by
  rw [luxMagnitude, if_neg h]
  exact Nat.mul_le_mul_right _ (Nat.le_add_right ..)

/-- Magnitudes are ordered first by the exponent and then by the fraction. -/
theorem luxMagnitude_lt {x y : Binary32}
    (h : luxExponent x < luxExponent y ∨ luxExponent x = luxExponent y ∧ luxFraction x < luxFraction y) :
    luxMagnitude x < luxMagnitude y := by
  obtain hlt | ⟨heq, hf⟩ := h
  · calc luxMagnitude x < 2 ^ 23 * 2 ^ luxExponent x := luxMagnitude_lt_pow x
      _ ≤ 2 ^ 23 * 2 ^ (luxExponent y - 1) := Nat.mul_le_mul_left _ (Nat.pow_le_pow_right (by omega) (by omega))
      _ ≤ luxMagnitude y := pow_le_luxMagnitude (by omega)
  · unfold luxMagnitude
    rw [heq]
    split_ifs
    · exact hf
    · exact Nat.mul_lt_mul_of_pos_right (by omega) (by positivity)

/-- Below the sign bit, magnitudes are ordered as the patterns are. -/
theorem luxMagnitude_le_iff {x y : Binary32} (hx : x.toNat < 2 ^ 31) (hy : y.toNat < 2 ^ 31) :
    luxMagnitude x ≤ luxMagnitude y ↔ x.toNat ≤ y.toNat := by
  have lt_of_lt : ∀ {a b : Binary32}, b.toNat < 2 ^ 31 → a.toNat < b.toNat → luxMagnitude a < luxMagnitude b := by
    intro a b hb hab
    refine luxMagnitude_lt ?_
    rw [luxExponent_eq, luxExponent_eq, luxFraction_eq, luxFraction_eq]
    omega
  constructor
  · intro h
    by_contra hlt
    have := lt_of_lt hx (Nat.lt_of_not_le hlt)
    omega
  · intro h
    obtain hlt | heq := Nat.lt_or_eq_of_le h
    · exact (lt_of_lt hy hlt).le
    · rw [BitVec.eq_of_toNat_eq heq]

/-- A pattern below plus infinity stands for its magnitude. -/
theorem luxValue_of_lt {x : Binary32} (h : x.toNat < 0x7F800000) : luxValue x = .finite (luxMagnitude x) := by
  have hsign : luxSign x ≠ true := by rw [ne_eq, luxSign_iff]; omega
  have hexp : luxExponent x ≠ 255 := by rw [luxExponent_eq]; omega
  rw [luxValue, if_neg hexp, if_neg hsign]

/-- Up to plus infinity the ordered comparison with a finite threshold is one of patterns. -/
theorem luxGe_eq_decide {x t : Binary32} (hx : x.toNat ≤ 0x7F800000) (ht : t.toNat < 0x7F800000) :
    luxGe x t = decide (t.toNat ≤ x.toNat) := by
  rw [luxGe, luxValue_of_lt ht]
  obtain hlt | heq := Nat.lt_or_eq_of_le hx
  · rw [luxValue_of_lt hlt, finite_ge_finite, decide_eq_decide, Int.ofNat_le]
    exact luxMagnitude_le_iff (by omega) (by omega)
  · rw [decide_eq_true (by omega), BitVec.eq_of_toNat_eq (y := 0x7F800000#32) heq]
    rfl

/-- A pattern above plus infinity is a NaN or has sign 1, and is not at or above a positive threshold. -/
theorem luxGe_eq_false {x t : Binary32} (hx : 0x7F800000 < x.toNat) (hpos : 0 < t.toNat) (ht : t.toNat < 0x7F800000) :
    luxGe x t = false := by
  have hmag : 0 < luxMagnitude t := by
    have hle := luxMagnitude_le_iff (x := t) (y := 0) (by omega) (by decide)
    exact Nat.zero_lt_of_lt (Nat.lt_of_not_le (hle.not.mpr (Nat.not_le.mpr hpos)))
  rw [luxGe, luxValue_of_lt ht, luxValue]
  split_ifs with hexp hfrac hsign hsign
  · rfl
  · rw [luxSign_iff] at hsign
    rw [luxExponent_eq] at hexp
    rw [luxFraction_eq] at hfrac
    omega
  · rfl
  · exact decide_eq_false (by omega)
  · rw [luxSign_iff] at hsign
    rw [luxExponent_eq] at hexp
    omega

/-- Settles O48: each comparison of the chain is one of patterns, or false. -/
theorem baseFollowsFromBitPatterns : Obligations.BaseFollowsFromBitPatterns := by
  intro lux m s hasc hpos
  simp only [Config.luxAscending, Bool.and_eq_true, decide_eq_true_eq] at hasc
  obtain ⟨⟨h12, h23⟩, h3⟩ := hasc
  obtain ⟨hbase, -⟩ := tick_base_target s.cfg lux m s.bc
  refine ⟨s.bc.tick s.cfg lux m, rfl, ?_⟩
  rw [hbase, baseOf]
  by_cases hlux : lux.toNat ≤ 0x7F800000
  · rw [if_pos hlux]
    simp only [luxGe_eq_decide hlux h3, luxGe_eq_decide hlux (h23.trans h3),
      luxGe_eq_decide hlux (h12.trans (h23.trans h3)), decide_eq_true_eq]
  · have hnot : ∀ t : Binary32, 0 < t.toNat → t.toNat < 0x7F800000 → luxGe lux t = false :=
      fun t => luxGe_eq_false (Nat.lt_of_not_le hlux)
    rw [if_neg hlux, hnot _ (by omega) h3, hnot _ (by omega) (h23.trans h3), hnot _ hpos (by omega)]
    rfl

/-! #### The target (R194) -/

theorem targetOf_boost {base : Byte} {m : Bool} (hb : base ≠ 0) (hm : m = true) : targetOf base m = Const.boost :=
  if_pos ⟨Nat.pos_of_ne_zero fun h => hb (BitVec.eq_of_toNat_eq h), hm⟩

theorem targetOf_base {base : Byte} {m : Bool} (h : base = 0 ∨ m = false) : targetOf base m = base := by
  refine if_neg fun ⟨hb, hm⟩ => ?_
  obtain rfl | rfl := h
  · exact absurd hb (by decide)
  · cases hm

/-- The four base values of the default table (R193). -/
theorem baseOf_default (lux : Binary32) : baseOf Config.default lux ∈ ([0, 50, 80, 110] : List Byte) := by
  unfold baseOf
  split_ifs <;> decide

/-- Settles O49: the stored target is `targetOf` of the stored base, and the default table has four bases. -/
theorem motionBoostsOnlyAboveBaseZero : Obligations.MotionBoostsOnlyAboveBaseZero := by
  intro lux m s
  obtain ⟨hbase, htarget⟩ := tick_base_target s.cfg lux m s.bc
  refine ⟨s.bc.tick s.cfg lux m, rfl, ?_, ?_, ?_⟩
  · rw [hbase, htarget]
    exact targetOf_boost
  · rw [hbase, htarget]
    exact targetOf_base
  · intro hdefault
    have targets : ∀ base ∈ ([0, 50, 80, 110] : List Byte), targetOf base m ∈ ([0, 50, 80, 110, 255] : List Byte) := by
      cases m <;> decide
    rw [htarget, hdefault]
    exact targets _ (baseOf_default lux)

end Sys2Proof.Machine

end

/-! ### Proofs: one TICK against the brightness (44_brightness_controller.md R195 to R203) -/

section

namespace Sys2Proof.Machine

/-! #### Step 3 -/

@[simp] theorem transition_current (b : BcState) : b.transition.current = b.current := by
  unfold BcState.transition
  split_ifs <;> rfl

@[simp] theorem transition_target (b : BcState) : b.transition.target = b.target := by
  unfold BcState.transition
  split_ifs <;> rfl

/-- The phase after step 3, whatever it was before (R196). -/
theorem transition_phase (b : BcState) :
    b.transition.phase =
      if b.current < b.target then .rising else if b.target < b.current then .falling else .idle := by
  unfold BcState.transition
  split_ifs with _ hrising _ hfalling
  · exact hrising
  · rfl
  · exact hfalling
  · rfl
  · rfl

/-- Settles O53: the three cases of the comparison exclude each other, and each gives its phase. -/
theorem phaseAfterTransitionIsTheComparison : Obligations.PhaseAfterTransitionIsTheComparison := by
  intro b
  rw [transition_phase, transition_current, transition_target]
  obtain hlt | hgt | heq := byte_cases b.current b.target
  · simp [hlt, BitVec.lt_asymm hlt, BitVec.ne_of_lt hlt]
  · simp [hgt, BitVec.lt_asymm hgt, (BitVec.ne_of_lt hgt).symm]
  · simp [heq, BitVec.lt_irrefl]

/-- Settles O52: at the target a TICK is `tick_level`. -/
theorem tickAtTheTargetForcesIdle : Obligations.TickAtTheTargetForcesIdle := by
  intro lux m s
  obtain ⟨-, htarget⟩ := tick_base_target s.cfg lux m s.bc
  refine ⟨s.bc.tick s.cfg lux m, rfl, fun h => ?_⟩
  rw [tick_level s.cfg lux m s.bc (h.symm.trans htarget)]
  exact ⟨rfl, rfl, rfl, rfl⟩

/-! #### A step of a curve -/

/-- `b'` is one step further than `b` on the curve of phase `p` (R198 to R202): the curve is taken up, or started from the
current brightness; within the total its value is the brightness, and above it the brightness snaps. -/
def BcState.StepsAlong (p : Phase) (total : Nat) (value : Byte → Byte → Nat → Int) (b b' : BcState) : Prop :=
  b'.stepStart = (if b.phase = p then b.stepStart else b.current) ∧
  b'.stepCount = (if b.phase = p then b.stepCount else 0) + 1 ∧
  (b'.stepCount ≤ total →
    b'.phase = p ∧ (b'.current.toNat : Int) = value b'.stepStart b'.target b'.stepCount) ∧
  (total < b'.stepCount → b'.phase = .idle ∧ b'.current = b'.target)

/-- From a legal controller the rising curve fits its registers, so nothing is narrowed. -/
theorem tick_stepsAlong_rising {c : Config} (hc : c.wf = true) {lux : Binary32} {m : Bool} {b : BcState} (hb : b.Inv c)
    (h : b.current < targetOf (baseOf c lux) m) :
    b.StepsAlong .rising c.riseSteps (risingValue c) (b.tick c lux m) := by
  obtain ⟨hrise, -, hfits, -⟩ := wf_steps hc
  obtain ⟨hs, hn⟩ := inv_rising_start hb
  rw [tick_brighter c lux m b h, BcState.StepsAlong]
  dsimp only
  generalize (if b.phase = .rising then b.stepStart else b.current) = start at *
  generalize (if b.phase = .rising then b.stepCount else 0) = n at *
  rw [Nat.mod_eq_of_lt (by omega)]
  split_ifs with hlast
  · obtain ⟨hlow, hhigh⟩ := risingValue_bounds hrise hlast (BitVec.le_trans hs (BitVec.le_of_lt h))
    exact ⟨rfl, rfl, fun _ => ⟨rfl, ofInt_byte (by omega) (by omega)⟩, fun hover => absurd hlast (Nat.not_le_of_lt hover)⟩
  · exact ⟨rfl, rfl, fun hin => absurd hin hlast, fun _ => ⟨rfl, rfl⟩⟩

theorem tick_stepsAlong_falling {c : Config} (hc : c.wf = true) {lux : Binary32} {m : Bool} {b : BcState} (hb : b.Inv c)
    (h : targetOf (baseOf c lux) m < b.current) :
    b.StepsAlong .falling c.fallSteps (fallingValue c) (b.tick c lux m) := by
  obtain ⟨-, hfall, -, hfits⟩ := wf_steps hc
  obtain ⟨hs, hn⟩ := inv_falling_start hb
  rw [tick_darker c lux m b h, BcState.StepsAlong]
  dsimp only
  generalize (if b.phase = .falling then b.stepStart else b.current) = start at *
  generalize (if b.phase = .falling then b.stepCount else 0) = n at *
  rw [Nat.mod_eq_of_lt (by omega)]
  split_ifs with hlast
  · obtain ⟨hlow, hhigh⟩ := fallingValue_bounds hfall hlast (BitVec.le_trans (BitVec.le_of_lt h) hs)
    exact ⟨rfl, rfl, fun _ => ⟨rfl, ofInt_byte (by omega) (by omega)⟩, fun hover => absurd hlast (Nat.not_le_of_lt hover)⟩
  · exact ⟨rfl, rfl, fun hin => absurd hin hlast, fun _ => ⟨rfl, rfl⟩⟩

/-- Settles O50: a step of the rising curve, its quotient written out for each rounding mode. -/
theorem tickTowardABrighterTarget : Obligations.TickTowardABrighterTarget := by
  rintro lux m s ⟨hcfg, -, -, hbc⟩
  obtain ⟨-, htarget⟩ := tick_base_target s.cfg lux m s.bc
  refine ⟨s.bc.tick s.cfg lux m, rfl, fun h => ?_⟩
  obtain ⟨hstart, hcount, hwithin, habove⟩ := tick_stepsAlong_rising hcfg hbc (htarget ▸ h)
  refine ⟨hstart, hcount, fun hle => ?_, habove⟩
  obtain ⟨hphase, hvalue⟩ := hwithin hle
  refine ⟨hphase, hvalue.trans ?_⟩
  rw [risingValue]
  cases s.cfg.curveRound <;> rfl

/-- Settles O51: a step of the falling curve. -/
theorem tickTowardADarkerTarget : Obligations.TickTowardADarkerTarget := by
  rintro lux m s ⟨hcfg, -, -, hbc⟩
  obtain ⟨-, htarget⟩ := tick_base_target s.cfg lux m s.bc
  refine ⟨s.bc.tick s.cfg lux m, rfl, fun h => ?_⟩
  obtain ⟨hstart, hcount, hwithin, habove⟩ := tick_stepsAlong_falling hcfg hbc (htarget ▸ h)
  refine ⟨hstart, hcount, fun hle => ?_, habove⟩
  obtain ⟨hphase, hvalue⟩ := hwithin hle
  refine ⟨hphase, hvalue.trans ?_⟩
  rw [fallingValue]
  cases s.cfg.curveRound <;> rfl

end Sys2Proof.Machine

end

/-! ### Proofs: TICKs with constant operands (44_brightness_controller.md R199 to R204, R208) -/

section

namespace Sys2Proof.Machine

/-! #### Iterating TICK -/

/-- A run of TICKs iterates TICK on the controller's registers. -/
theorem runOps_ticks (n : Nat) (lux : Binary32) (m : Bool) (s : State) :
    ∃ t outs, runOps (ticks n lux m) s = some (t, outs) ∧ t.bc = (BcState.tick s.cfg lux m)^[n] s.bc := by
  induction n generalizing s with
  | zero => exact ⟨s, [], rfl, rfl⟩
  | succ n ih =>
    obtain ⟨t, outs, hrun, hbc⟩ := ih ((s.setBc (s.bc.tick s.cfg lux m)).deliver
      (.brightness (s.bc.tick s.cfg lux m).current))
    refine ⟨t, .brightness (s.bc.tick s.cfg lux m).current :: outs, ?_, hbc⟩
    rw [ticks, List.replicate_succ, runOps_cons (exec_tick lux m s), ← ticks, hrun]
    rfl

theorem iterate_tick_inv {c : Config} (hc : c.wf = true) (lux : Binary32) (m : Bool) {b : BcState} (hb : b.Inv c)
    (n : Nat) : ((BcState.tick c lux m)^[n] b).Inv c := by
  induction n with
  | zero => exact hb
  | succ n ih =>
    rw [Function.iterate_succ_apply']
    exact tick_keeps_inv hc lux m ih

theorem iterate_tick_target (c : Config) (lux : Binary32) (m : Bool) (b : BcState) {n : Nat} (hn : 1 ≤ n) :
    ((BcState.tick c lux m)^[n] b).target = targetOf (baseOf c lux) m := by
  obtain ⟨k, rfl⟩ := Nat.exists_eq_add_of_le' hn
  rw [Function.iterate_succ_apply']
  exact (tick_base_target c lux m _).2

/-! #### From rest, along one curve -/

/-- After `n` ticks toward `g` the brightness is the curve's `value n`; short of `g`, the next TICK takes the curve of phase
`p` up at step `n` from `start`. Rounding may bring the brightness to `g` early, and the controller is then at rest. -/
def BcState.OnCurve (p : Phase) (value : Byte → Byte → Nat → Int) (start g : Byte) (n : Nat) (b : BcState) : Prop :=
  (b.current.toNat : Int) = value start g n ∧
  (b.current ≠ g →
    (if b.phase = p then b.stepStart else b.current) = start ∧ (if b.phase = p then b.stepCount else 0) = n)

/-- At rest no step of a curve is made. -/
theorem onCurve_zero {p : Phase} {value : Byte → Byte → Nat → Int} {g : Byte} {b : BcState} (hp : b.phase = .idle)
    (hne : p ≠ .idle) (hvalue : value b.current g 0 = b.current.toNat) : b.OnCurve p value b.current g 0 := by
  have hphase : ¬ b.phase = p := fun h => hne (h.symm.trans hp)
  exact ⟨hvalue.symm, fun _ => ⟨if_neg hphase, if_neg hphase⟩⟩

/-- A TICK goes one step further on a curve that stays at `g` once it is there. -/
theorem onCurve_tick {c : Config} {lux : Binary32} {m : Bool} {p : Phase} {total : Nat}
    {value : Byte → Byte → Nat → Int} {start g : Byte} {n : Nat} {b : BcState} (hg : targetOf (baseOf c lux) m = g)
    (h : b.OnCurve p value start g n) (hn : n + 1 ≤ total)
    (hmove : b.current ≠ g → b.StepsAlong p total value (b.tick c lux m))
    (hstay : value start g n = g.toNat → value start g (n + 1) = g.toNat) :
    (b.tick c lux m).OnCurve p value start g (n + 1) := by
  obtain ⟨hcurrent, htakeUp⟩ := h
  by_cases hat : b.current = g
  · rw [tick_level c lux m b (hat.trans hg.symm)]
    exact ⟨by rw [hat, hstay (by rw [← hcurrent, hat])], fun hne => absurd hat hne⟩
  · obtain ⟨hstart, hcount⟩ := htakeUp hat
    obtain ⟨hstart', hcount', hwithin, -⟩ := hmove hat
    obtain ⟨-, htarget⟩ := tick_base_target c lux m b
    rw [hstart] at hstart'
    rw [hcount] at hcount'
    obtain ⟨hphase, hvalue⟩ := hwithin (by omega)
    rw [hstart', hcount', htarget, hg] at hvalue
    exact ⟨hvalue, fun _ => ⟨by rw [if_pos hphase, hstart'], by rw [if_pos hphase, hcount']⟩⟩

theorem risingValue_zero {c : Config} (hc : 1 ≤ c.riseSteps) (start g : Byte) : risingValue c start g 0 = start.toNat := by
  have h := quotient_mul_self c.curveRound 0 ((c.riseSteps : Int) * c.riseSteps) (mul_pos (by omega) (by omega))
  rw [zero_mul] at h
  simp [risingValue, h]

theorem fallingValue_zero {c : Config} (hc : 1 ≤ c.fallSteps) (start g : Byte) :
    fallingValue c start g 0 = start.toNat := by
  have h := quotient_mul_self c.curveRound 0 ((c.fallSteps : Int) * c.fallSteps) (mul_pos (by omega) (by omega))
  rw [zero_mul] at h
  simp [fallingValue, h]

/-- The rising curve does not descend. -/
theorem risingValue_le_succ {c : Config} (hc : 1 ≤ c.riseSteps) {start g : Byte} (h : start ≤ g) (n : Nat) :
    risingValue c start g n ≤ risingValue c start g (n + 1) := by
  have hd : (0 : Int) ≤ (g.toNat : Int) - start.toNat := by
    have : start.toNat ≤ g.toNat := h
    omega
  refine Int.add_le_add_left (quotient_mono _ _ (mul_pos (by omega) (by omega)) ?_) _
  rw [mul_assoc, mul_assoc]
  exact mul_le_mul_of_nonneg_left (mul_self_le_mul_self (by omega) (by omega)) hd

/-- The falling curve does not ascend within its steps. -/
theorem fallingValue_succ_le {c : Config} {start g : Byte} {n : Nat} (hn : n + 1 ≤ c.fallSteps) (h : g ≤ start) :
    fallingValue c start g (n + 1) ≤ fallingValue c start g n := by
  have hd : (0 : Int) ≤ (start.toNat : Int) - g.toNat := by
    have : g.toNat ≤ start.toNat := h
    omega
  refine Int.sub_le_sub_left (quotient_mono _ _ (mul_pos (by omega) (by omega)) ?_) _
  rw [mul_assoc, mul_assoc]
  refine mul_le_mul_of_nonneg_left ?_ hd
  push_cast
  nlinarith

/-- A rise from rest stays on its curve. -/
theorem iterate_tick_onCurve_rising {c : Config} (hc : c.wf = true) {lux : Binary32} {m : Bool} {b : BcState}
    (hb : b.Inv c) (hidle : b.phase = .idle) (h : b.current < targetOf (baseOf c lux) m) {n : Nat}
    (hn : n ≤ c.riseSteps) :
    ((BcState.tick c lux m)^[n] b).OnCurve .rising (risingValue c) b.current (targetOf (baseOf c lux) m) n := by
  obtain ⟨hrise, -⟩ := wf_steps hc
  have hle := BitVec.le_of_lt h
  induction n with
  | zero => exact onCurve_zero hidle nofun (risingValue_zero hrise ..)
  | succ n ih =>
    rw [Function.iterate_succ_apply']
    have hcurve := ih (by omega)
    obtain ⟨-, hhigh⟩ := risingValue_bounds hrise (n := n) (by omega) hle
    obtain ⟨-, hhigh'⟩ := risingValue_bounds hrise hn hle
    have hmono := risingValue_le_succ hrise hle n
    refine onCurve_tick rfl hcurve hn (fun hne => ?_) (by omega)
    obtain hlt | hgt | heq := byte_cases ((BcState.tick c lux m)^[n] b).current (targetOf (baseOf c lux) m)
    · exact tick_stepsAlong_rising hc (iterate_tick_inv hc lux m hb n) hlt
    · obtain ⟨hcurrent, -⟩ := hcurve
      rw [BitVec.lt_def] at hgt
      omega
    · exact absurd heq hne

/-- A fall from rest stays on its curve. -/
theorem iterate_tick_onCurve_falling {c : Config} (hc : c.wf = true) {lux : Binary32} {m : Bool} {b : BcState}
    (hb : b.Inv c) (hidle : b.phase = .idle) (h : targetOf (baseOf c lux) m < b.current) {n : Nat}
    (hn : n ≤ c.fallSteps) :
    ((BcState.tick c lux m)^[n] b).OnCurve .falling (fallingValue c) b.current (targetOf (baseOf c lux) m) n := by
  obtain ⟨-, hfall, -⟩ := wf_steps hc
  have hle := BitVec.le_of_lt h
  induction n with
  | zero => exact onCurve_zero hidle nofun (fallingValue_zero hfall ..)
  | succ n ih =>
    rw [Function.iterate_succ_apply']
    have hcurve := ih (by omega)
    obtain ⟨hlow, -⟩ := fallingValue_bounds hfall (n := n) (by omega) hle
    obtain ⟨hlow', -⟩ := fallingValue_bounds hfall hn hle
    have hmono := fallingValue_succ_le hn hle
    refine onCurve_tick rfl hcurve hn (fun hne => ?_) (by omega)
    obtain hlt | hgt | heq := byte_cases ((BcState.tick c lux m)^[n] b).current (targetOf (baseOf c lux) m)
    · obtain ⟨hcurrent, -⟩ := hcurve
      rw [BitVec.lt_def] at hlt
      omega
    · exact tick_stepsAlong_falling hc (iterate_tick_inv hc lux m hb n) hgt
    · exact absurd heq hne

/-- Settles O54: the run iterates TICK, and the iterates stay on the rising curve. -/
theorem riseFromRestFollowsTheCurve : Obligations.RiseFromRestFollowsTheCurve := by
  rintro lux m n s ⟨hcfg, -, -, hbc⟩ hidle h h1 hn
  obtain ⟨t, outs, hrun, ht⟩ := runOps_ticks n lux m s
  obtain ⟨hvalue, -⟩ := iterate_tick_onCurve_rising hcfg hbc hidle h hn
  have htarget := iterate_tick_target s.cfg lux m s.bc h1
  rw [← ht] at hvalue htarget
  exact ⟨t, outs, hrun, htarget, by rw [hvalue, htarget, risingValue]⟩

/-- Settles O55: the same with the falling curve. -/
theorem fallFromRestFollowsTheCurve : Obligations.FallFromRestFollowsTheCurve := by
  rintro lux m n s ⟨hcfg, -, -, hbc⟩ hidle h h1 hn
  obtain ⟨t, outs, hrun, ht⟩ := runOps_ticks n lux m s
  obtain ⟨hvalue, -⟩ := iterate_tick_onCurve_falling hcfg hbc hidle h hn
  have htarget := iterate_tick_target s.cfg lux m s.bc h1
  rw [← ht] at hvalue htarget
  exact ⟨t, outs, hrun, htarget, by rw [hvalue, htarget, fallingValue]⟩

/-! #### From any legal state, to rest -/

/-- A legal controller is idle or on a step of a curve, no further than the longer one. -/
theorem inv_idle_or_count {c : Config} {b : BcState} (h : b.Inv c) :
    b.phase = .idle ∨ 1 ≤ b.stepCount ∧ b.stepCount ≤ max c.riseSteps c.fallSteps := by
  obtain ⟨-, hrise, hfall, -⟩ := h
  cases hp : b.phase with
  | idle => exact .inl rfl
  | rising =>
    obtain ⟨-, -, h1, hn⟩ := hrise hp
    exact .inr ⟨h1, by omega⟩
  | falling =>
    obtain ⟨-, -, h1, hn⟩ := hfall hp
    exact .inr ⟨h1, by omega⟩

/-- A TICK toward the target the controller already has brings it to rest or advances the count of its curve. -/
theorem tick_idle_or_count_succ {c : Config} (hc : c.wf = true) {lux : Binary32} {m : Bool} {b : BcState} (hb : b.Inv c)
    (htarget : b.target = targetOf (baseOf c lux) m) :
    (b.tick c lux m).phase = .idle ∨ b.phase ≠ .idle ∧ (b.tick c lux m).stepCount = b.stepCount + 1 := by
  have ⟨hidle, hrise, hfall, _⟩ := hb
  obtain hlt | hgt | heq := byte_cases b.current (targetOf (baseOf c lux) m)
  · have hp : b.phase = .rising := by
      cases hp : b.phase with
      | idle => exact absurd ((hidle hp).trans htarget) (BitVec.ne_of_lt hlt)
      | rising => rfl
      | falling => exact absurd (htarget ▸ (hfall hp).1) (BitVec.not_le.mpr hlt)
    obtain ⟨-, hcount, -⟩ := tick_stepsAlong_rising hc hb hlt
    exact .inr ⟨by simp [hp], by rw [hcount, if_pos hp]⟩
  · have hp : b.phase = .falling := by
      cases hp : b.phase with
      | idle => exact absurd ((hidle hp).trans htarget).symm (BitVec.ne_of_lt hgt)
      | rising => exact absurd (htarget ▸ (hrise hp).2.1) (BitVec.not_le.mpr hgt)
      | falling => rfl
    obtain ⟨-, hcount, -⟩ := tick_stepsAlong_falling hc hb hgt
    exact .inr ⟨by simp [hp], by rw [hcount, if_pos hp]⟩
  · rw [tick_level c lux m b heq]
    exact .inl rfl

/-- After `n` ticks with constant operands, `n` from 1, the controller is at rest or has counted `n` steps. -/
theorem iterate_tick_idle_or_count {c : Config} (hc : c.wf = true) (lux : Binary32) (m : Bool) {b : BcState}
    (hb : b.Inv c) (n : Nat) :
    ((BcState.tick c lux m)^[n + 1] b).phase = .idle ∨ n + 1 ≤ ((BcState.tick c lux m)^[n + 1] b).stepCount := by
  induction n with
  | zero => exact (inv_idle_or_count (iterate_tick_inv hc lux m hb 1)).imp_right And.left
  | succ n ih =>
    have hinv := iterate_tick_inv hc lux m hb (n + 1)
    have htarget := iterate_tick_target c lux m b (n := n + 1) (by omega)
    rw [Function.iterate_succ_apply' _ (n + 1)]
    refine (tick_idle_or_count_succ hc hinv htarget).imp_right fun ⟨hp, hcount⟩ => ?_
    have := ih.resolve_left hp
    omega

/-- Settles O56: after more ticks than either curve has steps the controller is at rest, and rest is at the target. -/
theorem constantOperandsSettle : Obligations.ConstantOperandsSettle := by
  rintro lux m k s ⟨hcfg, -, -, hbc⟩
  rw [Nat.add_right_comm]
  generalize hN : max s.cfg.riseSteps s.cfg.fallSteps + k = N
  obtain ⟨t, outs, hrun, ht⟩ := runOps_ticks (N + 1) lux m s
  have hinv := iterate_tick_inv hcfg lux m hbc (N + 1)
  have htarget := iterate_tick_target s.cfg lux m s.bc (n := N + 1) (by omega)
  have hcount := iterate_tick_idle_or_count hcfg lux m hbc N
  rw [← ht] at hinv htarget hcount
  have hidle : t.bc.phase = .idle := by
    obtain hidle | hge := hcount
    · exact hidle
    · exact (inv_idle_or_count hinv).resolve_right fun ⟨_, hle⟩ => by omega
  obtain ⟨hrest, -⟩ := hinv
  exact ⟨t, outs, hrun, hidle, (hrest hidle).trans htarget, htarget⟩

end Sys2Proof.Machine

end

/-! ### Proofs: every operation completes (60_exceptions.md R230) -/

section

namespace Sys2Proof.Machine

/-- An operation returns an output of its own kind (R39). Only the range of a percentage needs the configuration well
formed: an entry of `VP_Y` above 100 could be returned as it stands. -/
theorem exec_out_fits {i : Instr} {s t : State} (hc : s.cfg.wf = true) (h : exec i s = .next t) : t.out.fits i := by
  obtain ⟨rfl, rfl⟩ | ⟨mv, rfl, rfl⟩ | ⟨b, rfl, rfl⟩ | ⟨now, rfl, rfl⟩ | ⟨rfl, rfl⟩ | ⟨now, rfl, rfl⟩ |
    ⟨lux, m, rfl, rfl⟩ := exec_cases h
  · exact deliver_out ..
  · have hval := pct_toNat hc mv
    obtain ⟨-, hmax⟩ := percentOf_bounds hc mv
    exact ⟨_, deliver_out .., by omega⟩
  · exact ⟨_, deliver_out ..⟩
  · exact deliver_out ..
  · exact deliver_out ..
  · exact ⟨_, deliver_out ..⟩
  · exact ⟨_, deliver_out ..⟩

/-- Settles O15: every arm of `exec` answers a next state; that state keeps the invariants unit by unit, and its output is
the one the arm delivers. -/
theorem everyOperationCompletes : Obligations.EveryOperationCompletes := by
  intro i s
  obtain ⟨t, h⟩ := exec_next i s
  refine ⟨t, h, fun hs => ⟨exec_keeps_inv hs h, ?_⟩⟩
  obtain ⟨hcfg, -⟩ := hs
  exact exec_out_fits hcfg h

end Sys2Proof.Machine

end

/-! ### Proofs: the reset event and the first operations after it (70_reset_and_hazards.md R260 to R264) -/

section

namespace Sys2Proof.Machine

theorem present_reset {s : State} {rest : List Presented} (h : s.env = .reset :: rest) :
    s.present = (.reset, { s with env := rest }) := by
  simp only [State.present, h]

/-- Settles O10: the step is the reset event, on the state with what is left to present. -/
theorem resetEventGivesTheResetState : Obligations.ResetEventGivesTheResetState := by
  intro s rest henv
  refine ⟨{ s with env := rest }.resetEvent, ?_, rfl, rfl, rfl, rfl, rfl, rfl, rfl⟩
  rw [step, present_reset henv]
  rfl

/-- Settles O18: an operation completes in every state, and neither a reset event nor an operation writes the
configuration. -/
theorem parametersNeverChange : Obligations.ParametersNeverChange := by
  refine ⟨fun i => exec_next i State.reset, fun s t h => ?_⟩
  obtain ⟨env, rfl⟩ | ⟨env, i, hi⟩ := step_cases h
  · rfl
  · obtain ⟨hcfg, -⟩ := exec_cfg_env hi
    exact hcfg

/-- A searching decoder begins a frame with the header and no other byte. -/
theorem feed_begins_frame_iff {fd : FdState} (b : Byte) (h : fd.mode = .searchingHeader) :
    (fd.feed b).1.mode = .accumulatingPayload ↔ b = Const.header := by
  by_cases hb : b = Const.header
  · simp [hb, feed_header h]
  · simp [hb, feed_other h hb, h]

/-- A target is 0 exactly when its base is: motion boosts no base of 0. -/
theorem targetOf_eq_zero_iff (base : Byte) (m : Bool) : targetOf base m = 0 ↔ base = 0 := by
  by_cases hboost : base ≠ 0 ∧ m = true
  · obtain ⟨hbase, hm⟩ := hboost
    rw [targetOf_boost hbase hm]
    exact iff_of_false (by decide) hbase
  · rw [targetOf_base (by simpa [or_iff_not_imp_left] using hboost)]

/-- On this hardware the base is 0 in the top bracket alone. -/
theorem baseOf_default_eq_zero_iff (lux : Binary32) :
    baseOf Config.default lux = 0 ↔ luxGe lux Config.default.luxT3 = true := by
  unfold baseOf
  split_ifs with htop
  · exact iff_of_true rfl htop
  all_goals exact iff_of_false (by decide) htop

/-- The first step of this hardware's rising curve from 0 is still 0: its quotient is below one for every target. -/
theorem risingValue_default_first (g : Byte) : risingValue Config.default 0 g 1 = 0 := by
  show (0 : Int) + (((g.toNat : Int) - 0) * 1 * 1) / (40 * 40) = 0
  omega

/-- The first TICK after reset toward a target other than 0 begins the rising curve from 0. -/
theorem reset_tick_rising {lux : Binary32} {m : Bool} (h : targetOf (baseOf Config.default lux) m ≠ 0) :
    let bc := BcState.reset.tick Config.default lux m
    bc.phase = .rising ∧ bc.stepStart = 0 ∧ bc.stepCount = 1 ∧ bc.current = 0 := by
  intro bc
  have hpos : 0 < targetOf (baseOf Config.default lux) m := Nat.pos_of_ne_zero fun h0 => h (BitVec.eq_of_toNat_eq h0)
  obtain ⟨hcfg, -, -, hbc⟩ := resetStateIsLegal
  obtain ⟨(hstart : bc.stepStart = 0), (hcount : bc.stepCount = 1), hwithin, -⟩ := tick_stepsAlong_rising hcfg hbc hpos
  obtain ⟨hphase, (hvalue : (bc.current.toNat : Int) = risingValue Config.default bc.stepStart bc.target bc.stepCount)⟩ :=
    hwithin (hcount.trans_le (by decide))
  rw [hstart, hcount, risingValue_default_first] at hvalue
  exact ⟨hphase, hstart, hcount, BitVec.eq_of_toNat_eq (Int.ofNat_inj.mp hvalue)⟩

/-- The first TICK after reset whose target is 0 leaves the controller at rest. -/
theorem reset_tick_idle {lux : Binary32} {m : Bool} (h : targetOf (baseOf Config.default lux) m = 0) :
    let bc := BcState.reset.tick Config.default lux m
    bc.phase = .idle ∧ bc.current = 0 := by
  rw [tick_level Config.default lux m BcState.reset h.symm]
  exact ⟨rfl, rfl⟩

/-- Settles O57: QUERY finds the latch inactive, FEED the decoder searching, and TICK the brightness 0, which its target
either is or is above. -/
theorem firstOperationsAfterReset : Obligations.FirstOperationsAfterReset := by
  refine ⟨fun now => ?_, fun b => ?_, fun lux m => ?_⟩
  · obtain ⟨t, h⟩ := exec_next (.query now) State.reset
    exact ⟨t, h, query_out_of_inactive rfl h⟩
  · exact ⟨_, exec_feed b State.reset, (feed_begins_frame_iff b rfl).symm⟩
  · obtain ⟨-, htarget⟩ := tick_base_target Config.default lux m BcState.reset
    have hzero : (BcState.reset.tick Config.default lux m).target = 0 ↔ luxGe lux Config.default.luxT3 = true := by
      rw [htarget, targetOf_eq_zero_iff, baseOf_default_eq_zero_iff]
    refine ⟨_, exec_tick lux m State.reset, ?_⟩
    by_cases h : targetOf (baseOf Config.default lux) m = 0
    · obtain ⟨hphase, hcurrent⟩ := reset_tick_idle h
      exact ⟨hcurrent, hzero, fun _ => hphase, fun hrise => absurd (htarget.trans h) hrise⟩
    · obtain ⟨hphase, hstart, hcount, hcurrent⟩ := reset_tick_rising h
      exact ⟨hcurrent, hzero, fun hidle => absurd (htarget.symm.trans hidle) h, fun _ => ⟨hphase, hstart, hcount⟩⟩

end Sys2Proof.Machine

end

/-! ### Proofs: runs over a legal environment (70_reset_and_hazards.md R266, R273; 30_encoding.md R103) -/

section

namespace Sys2Proof.Machine

/-- A legal word performs an operation, and no operation stops or touches the configuration or what is presented. -/
theorem perform_next_of_legalWord {ch : Channel} {w : TW} {s : State} (h : legalWord s.cfg ch w = true) :
    ∃ t, perform ch w s = .next t ∧ t.cfg = s.cfg ∧ t.env = s.env := by
  unfold legalWord at h
  unfold perform
  cases hw : decodeOn s.cfg ch w with
  | error e => simp [hw] at h
  | ok i =>
    obtain ⟨t, ht⟩ := exec_next i s
    exact ⟨t, ht, exec_cfg_env ht⟩

/-- The machine goes on from everything a legal environment may present. -/
theorem respond_next_of_legal {e : Presented} {s : State} (h : e.legal s.cfg = true) :
    ∃ t, respond e s = .next t ∧ t.cfg = s.cfg ∧ t.env = s.env := by
  cases e with
  | nothing => exact ⟨_, exec_nop s, rfl, rfl⟩
  | onP w => exact perform_next_of_legalWord h
  | onT w => exact perform_next_of_legalWord h
  | both wP wT =>
    obtain ⟨hP, -⟩ := Bool.and_eq_true_iff.mp h
    exact perform_next_of_legalWord hP
  | reset => exact ⟨s.resetEvent, rfl, rfl, rfl⟩

/-- A legal environment presents a legal entry and stays legal; half of a coincidence is legal with the whole. -/
theorem present_legal {s : State} (h : s.envLegal = true) :
    s.present.1.legal s.present.2.cfg = true ∧ s.present.2.envLegal = true := by
  obtain ⟨cfg, fd, ml, bc, out, env⟩ := s
  cases env with
  | nil => exact ⟨rfl, rfl⟩
  | cons e rest =>
    obtain ⟨he, hrest⟩ := Bool.and_eq_true_iff.mp h
    cases e with
    | both wP wT =>
      obtain ⟨hP, hT⟩ := Bool.and_eq_true_iff.mp he
      exact ⟨hP, Bool.and_eq_true_iff.mpr ⟨hT, hrest⟩⟩
    | nothing => exact ⟨he, hrest⟩
    | onP w => exact ⟨he, hrest⟩
    | onT w => exact ⟨he, hrest⟩
    | reset => exact ⟨he, hrest⟩

/-- A step over a legal environment goes on and leaves a legal environment. -/
theorem step_next_of_envLegal {s : State} (h : s.envLegal = true) : ∃ t, step s = .next t ∧ t.envLegal = true := by
  obtain ⟨he, hleft⟩ := present_legal h
  obtain ⟨t, ht, hcfg, henv⟩ := respond_next_of_legal he
  exact ⟨t, ht, by rwa [State.envLegal, hcfg, henv]⟩

/-- Settles O16, by induction on the number of steps. -/
theorem legalEnvironmentNeverStopsARun : Obligations.LegalEnvironmentNeverStopsARun := by
  intro k
  induction k with
  | zero => exact fun s _ => ⟨s, core_run_zero s⟩
  | succ k ih =>
    intro s h
    obtain ⟨t, ht, hlegal⟩ := step_next_of_envLegal h
    rw [core_run_succ k ht]
    exact ih t hlegal

end Sys2Proof.Machine

end
